-- ==== Sys2Proof/Word.lean ====
section
/-! DEFINITION. The words the block moves: bytes, 16-, 32- and 64-bit registers, and the 14-byte frame
(00_scope.md R6, 30_encoding.md R100). All quantities are unsigned. -/

namespace Sys2Proof

/-- A byte, 8 bits (R6). -/
abbrev Byte := BitVec 8

/-- The 16-bit accumulator and checksum (R22). -/
abbrev Half := BitVec 16

/-- A 32-bit register or TRAJ entry. -/
abbrev Word := BitVec 32

/-- A 64-bit register, TS entry or port datum. -/
abbrev DWord := BitVec 64

/-- `FRAME_LEN` of 00_scope.md R5. -/
abbrev frameLen : Nat := 14

/-- A frame buffer: exactly 14 bytes, offset 0 first on the wire (R26, R75, R100). -/
abbrev Frame := Vector Byte 14

end Sys2Proof
end

