-- ==== Sys2Proof/Syntax.lean ====
section
/-! DEFINITION. The instructions: one constructor of `Instr` per row of opcode_table.json, in the table's
order: five host transactions (30_encoding.md R106), six command words (R109, R110), eleven sequencer
phases (R111). Register numbers and field codes are names here; their bits are in Decode.lean. -/

namespace Sys2Proof

/-- The checksum strategy `var`, and the value of CK_VAR (R32, R130). -/
inductive Variant
  | crc16
  | add8
deriving DecidableEq, Repr

/-- The buffer operand of CKBUF (R110). -/
inductive BufSel
  | tx
  | rx
deriving DecidableEq, Repr

/-- The mapped addresses of the REG space, by name (10_state.md R21). -/
inductive Reg
  | cmd
  | status
  | cfg
  | period
  | count
  | duration
  | trajLen
  | iter
  | tsLen
  | errInfo
  | tStart
  | tPre
  | tPost
  | deadline
  | hdr0
  | hdr1
  | hdr2
  | hdr3
  | valA
  | valB
  | decA
  | decB
  | acc
  | cksum
  | txbuf (i : Fin 14)
  | rxbuf (i : Fin 14)
deriving DecidableEq, Repr

/-- The values of PHASE, the sequencer's program counter (10_state.md R28). -/
inductive Phase
  | idle
  | check
  | wait
  | pre
  | enc
  | xreq
  | xwait
  | dec
  | post
  | append
  | done
deriving DecidableEq, Repr

/-- A legal command word (30_encoding.md R109, R110). -/
inductive Command
  | ckinit (var : Variant)
  | ckbyte (b : Byte)
  | ckbuf (var : Variant) (buf : BufSel) (n : BitVec 4)
  | enc
  | dec
  | start
deriving DecidableEq, Repr

/-- The instructions, one constructor per row of opcode_table.json. -/
inductive Instr
  | rdReg (r : Reg)
  | wrReg (r : Reg) (wdata : DWord)
  | rdTraj (idx : Word)
  | wrTraj (idx : Word) (wdata : DWord)
  | rdTs (idx : Word)
  | ckinit (var : Variant)
  | ckbyte (b : Byte)
  | ckbuf (var : Variant) (buf : BufSel) (n : BitVec 4)
  | enc
  | dec
  | start
  | phIdle
  | phCheck
  | phWait
  | phPre
  | phEnc
  | phXreq
  | phXwait
  | phDec
  | phPost
  | phAppend
  | phDone
deriving DecidableEq, Repr

/-- The instruction of a command word. -/
def Command.toInstr : Command → Instr
  | .ckinit var => .ckinit var
  | .ckbyte b => .ckbyte b
  | .ckbuf var buf n => .ckbuf var buf n
  | .enc => .enc
  | .dec => .dec
  | .start => .start

/-- The instruction a phase stands for (R111). -/
def Phase.toInstr : Phase → Instr
  | .idle => .phIdle
  | .check => .phCheck
  | .wait => .phWait
  | .pre => .phPre
  | .enc => .phEnc
  | .xreq => .phXreq
  | .xwait => .phXwait
  | .dec => .phDec
  | .post => .phPost
  | .append => .phAppend
  | .done => .phDone

/-- An encoded instruction: the three formats are told apart by where they occur, the host port, the
write data of a CMD write, or the PHASE register, not by their bits (30_encoding.md R113). -/
inductive InstrWord
  | bus (w : BitVec 99)
  | cmd (w : BitVec 16)
  | phase (w : BitVec 4)
deriving DecidableEq, Repr

end Sys2Proof
end

