-- ==== Sys2Proof/Config.lean ====
section
/-! DEFINITION. What one build of the hardware fixes and the spec leaves open (00_scope.md R5), and the
free values (93_implementation_defined.md U1, U3, U7). Each is an opaque constant without a body: no
proof can see a value of it (log 13). The operations take a `Params` argument, so that tests can run them
with the spec's test parameter sets. -/

namespace Sys2Proof

/-- Which frame values take the trajectory sample (R206, conflict C5). -/
inductive AxisMap
  | a
  | b
  | ab
deriving DecidableEq, Repr, Inhabited

/-- The three constants of the CRC strategy (R131, R133). -/
structure CrcParams where
  poly : Half
  seed : Half
  xorOut : Half
deriving DecidableEq, Repr, Inhabited

/-- The build parameters the operations read (R5). -/
structure Params where
  crc : CrcParams
  trajCap : Nat
  tsCap : Nat
  axisMap : AxisMap
deriving DecidableEq, Repr, Inhabited

namespace Config

/-- `CRC_SEED` (U2, N1). -/
opaque crcSeed : Half

/-- `CRC_POLY` (U2, N1). -/
opaque crcPoly : Half

/-- `CRC_XOROUT` (U2, N1). -/
opaque crcXorOut : Half

/-- Any number; `trajCap` brings it into the range of R5. -/
opaque trajCapDraw : Nat

/-- Any number; `tsCap` brings it into the range of R5. -/
opaque tsCapDraw : Nat

/-- `AXIS_MAP` (U11). R5 names `AB` as its default and forbids assuming a value. -/
opaque axisMap : AxisMap

/-- `SLEEP_MAX`, in nanoseconds: documentation only, no rule reads it (U9, log 17). -/
opaque sleepMax : Nat

/-- `TRAJ_CAP`, any value with 1 <= TRAJ_CAP <= 2^32 - 1 (R5, U10). -/
def trajCap : Nat := trajCapDraw % (2 ^ 32 - 1) + 1

/-- `TS_CAP`, any value with 1 <= TS_CAP <= 2^32 - 1 (R5, U10). -/
def tsCap : Nat := tsCapDraw % (2 ^ 32 - 1) + 1

/-- This build's parameters. -/
def params : Params where
  crc := { poly := crcPoly, seed := crcSeed, xorOut := crcXorOut }
  trajCap := trajCap
  tsCap := tsCap
  axisMap := axisMap

/-- Free value: what the clock would answer at draw `n`, before the law of R84 is applied (U7, log 7). -/
opaque clockDraw : Nat → DWord

/-- Free value: the fourteen bytes RXBUF holds after a failed transfer (U3, log 11). -/
opaque failedRxbuf : Nat → Frame

end Config

/-- The contents R47 leaves unspecified: the data registers, and TRAJ as a list of (index, value) writes. -/
structure ResetData where
  acc : Half
  hdr0 : Byte
  hdr1 : Byte
  hdr2 : Byte
  hdr3 : Byte
  valA : Word
  valB : Word
  decA : Word
  decB : Word
  txbuf : Frame
  rxbuf : Frame
  tStart : DWord
  tPre : DWord
  tPost : DWord
  deadline : DWord
  traj : List (Nat × Word)
deriving DecidableEq, Repr, Inhabited

/-- Free value: what a reset event leaves in the cells R47 calls unspecified (U1, log 12). -/
opaque Config.resetData : Nat → ResetData

end Sys2Proof
end

