-- ==== Sys2Proof/WellFormed.lean ====
section
/-! DEFINITION. Well-formed instructions: the constraints of 30_encoding.md R110 that the types of
`Instr` do not already impose. Reserved argument bits have no place in `Instr`, register addresses are
names, so the one check left is the length of CKBUF. -/

namespace Sys2Proof

/-- `n <= 14` (R110, R138: there is no byte 14). -/
def Command.wellFormed : Command → Bool
  | .ckbuf _ _ n => decide (n.toNat ≤ frameLen)
  | .ckinit _ | .ckbyte _ | .enc | .dec | .start => true

/-- An instruction the encodings of R105 to R111 can hold. -/
def Instr.wellFormed : Instr → Bool
  | .ckbuf var buf n => (Command.ckbuf var buf n).wellFormed
  | .rdReg _ | .wrReg _ _ | .rdTraj _ | .wrTraj _ _ | .rdTs _ => true
  | .ckinit _ | .ckbyte _ | .enc | .dec | .start => true
  | .phIdle | .phCheck | .phWait | .phPre | .phEnc | .phXreq | .phXwait => true
  | .phDec | .phPost | .phAppend | .phDone => true

end Sys2Proof
end

