-- ==== Sys2Proof/Decode.lean ====
section
/-! DEFINITION. Decoding and encoding of the three formats of 30_encoding.md: `BUS` (R105, R106), `CMD`
(R107 to R110), `PHASE` (R111), with the register map's addresses (10_state.md R21). `decode` is total
and rejects by name every encoding of R112 that is not an instruction. -/

namespace Sys2Proof

/-- Why a word is no instruction (R112). -/
inductive Reject
  /-- `sel` is 101, 110 or 111. -/
  | illegalSelector
  /-- `addr[31:8] != 0`, or `addr[7:0]` is not mapped. -/
  | unmappedRegister
  /-- an `op` that R109 does not assign. -/
  | unassignedOpcode
  /-- a reserved argument bit of CKINIT, CKBUF, ENC, DEC or START is set. -/
  | reservedArgument
  /-- CKBUF with `n = 15`. -/
  | bufferLength
  /-- a PHASE code of 11 to 15. -/
  | unassignedPhase
deriving DecidableEq, Repr

/-- What a decoder answers. -/
inductive Decoded (α : Type)
  | ok (a : α)
  | rejected (why : Reject)
deriving DecidableEq, Repr

def Decoded.map {α β : Type} (f : α → β) : Decoded α → Decoded β
  | .ok a => .ok (f a)
  | .rejected why => .rejected why

/-! ### Codes of the fields -/

/-- `var`: 0 = CRC16, 1 = ADD8 (R32, R110). -/
def Variant.code : Variant → BitVec 1
  | .crc16 => 0
  | .add8 => 1

def Variant.ofCode (b : BitVec 1) : Variant :=
  if b = 0 then .crc16 else .add8

/-- `buf`: 0 = TXBUF, 1 = RXBUF (R110). -/
def BufSel.code : BufSel → BitVec 1
  | .tx => 0
  | .rx => 1

def BufSel.ofCode (b : BitVec 1) : BufSel :=
  if b = 0 then .tx else .rx

/-- The PHASE codes (R28, R111). -/
def Phase.code : Phase → BitVec 4
  | .idle => 0
  | .check => 1
  | .wait => 2
  | .pre => 3
  | .enc => 4
  | .xreq => 5
  | .xwait => 6
  | .dec => 7
  | .post => 8
  | .append => 9
  | .done => 10

/-- Every register that has one address of its own, with that address (R21). -/
def fixedAddresses : List (Nat × Reg) :=
  [ (0x00, .cmd), (0x01, .status), (0x02, .cfg), (0x03, .period), (0x04, .count), (0x05, .duration),
    (0x06, .trajLen), (0x07, .iter), (0x08, .tsLen), (0x09, .errInfo), (0x0A, .tStart), (0x0B, .tPre),
    (0x0C, .tPost), (0x0D, .deadline) ]
  ++ [ (0x10, .hdr0), (0x11, .hdr1), (0x12, .hdr2), (0x13, .hdr3), (0x14, .valA), (0x15, .valB),
    (0x16, .decA), (0x17, .decB), (0x18, .acc), (0x19, .cksum) ]

/-- The register at REG address `addr`, none where nothing is mapped: `addr[31:8]` must be 0 (R21, R70). -/
def Reg.ofAddr (addr : Word) : Option Reg :=
  if h : 0x40 ≤ addr.toNat ∧ addr.toNat < 0x40 + 14 then
    some (.txbuf ⟨addr.toNat - 0x40, by omega⟩)
  else if h : 0x50 ≤ addr.toNat ∧ addr.toNat < 0x50 + 14 then
    some (.rxbuf ⟨addr.toNat - 0x50, by omega⟩)
  else fixedAddresses.lookup addr.toNat

/-- A register's number, its REG address (R21). -/
def Reg.addr : Reg → Word
  | .cmd => 0x00
  | .status => 0x01
  | .cfg => 0x02
  | .period => 0x03
  | .count => 0x04
  | .duration => 0x05
  | .trajLen => 0x06
  | .iter => 0x07
  | .tsLen => 0x08
  | .errInfo => 0x09
  | .tStart => 0x0A
  | .tPre => 0x0B
  | .tPost => 0x0C
  | .deadline => 0x0D
  | .hdr0 => 0x10
  | .hdr1 => 0x11
  | .hdr2 => 0x12
  | .hdr3 => 0x13
  | .valA => 0x14
  | .valB => 0x15
  | .decA => 0x16
  | .decB => 0x17
  | .acc => 0x18
  | .cksum => 0x19
  | .txbuf i => BitVec.ofNat 32 (0x40 + i.val)
  | .rxbuf i => BitVec.ofNat 32 (0x50 + i.val)

/-! ### Fields of the words -/

/-- `sel = {space[1:0], we}`, bits 98:96 (R105). -/
def busSel (w : BitVec 99) : BitVec 3 := w.extractLsb' 96 3

/-- `addr`, bits 95:64 (R105). -/
def busAddr (w : BitVec 99) : Word := w.extractLsb' 64 32

/-- `wdata`, bits 63:0 (R105). -/
def busWdata (w : BitVec 99) : DWord := w.extractLsb' 0 64

/-- The BUS word with these fields (R105). -/
def busWord (sel : BitVec 3) (addr : Word) (wdata : DWord) : BitVec 99 := sel ++ addr ++ wdata

/-- `op`, bits 15:8 of a command word (R107). -/
def cmdOp (w : BitVec 16) : Byte := w.extractLsb' 8 8

/-- `arg`, bits 7:0 of a command word (R107). -/
def cmdArg (w : BitVec 16) : Byte := w.extractLsb' 0 8

/-! ### Decoders -/

/-- R108 to R110: the row by `op`, then its argument constraint. -/
def decodeCommand (w : BitVec 16) : Decoded Command :=
  let op := cmdOp w
  let arg := cmdArg w
  if op = 0x01 then
    if arg.extractLsb' 1 7 = 0 then .ok (.ckinit (Variant.ofCode (arg.extractLsb' 0 1)))
    else .rejected .reservedArgument
  else if op = 0x02 then .ok (.ckbyte arg)
  else if op = 0x03 then
    if arg.extractLsb' 4 2 ≠ 0 then .rejected .reservedArgument
    else if frameLen < (arg.extractLsb' 0 4).toNat then .rejected .bufferLength
    else .ok (.ckbuf (Variant.ofCode (arg.extractLsb' 7 1)) (BufSel.ofCode (arg.extractLsb' 6 1))
      (arg.extractLsb' 0 4))
  else if op = 0x10 then if arg = 0 then .ok .enc else .rejected .reservedArgument
  else if op = 0x11 then if arg = 0 then .ok .dec else .rejected .reservedArgument
  else if op = 0x20 then if arg = 0 then .ok .start else .rejected .reservedArgument
  else .rejected .unassignedOpcode

/-- R111; codes 11 to 15 are never taken. -/
def decodePhase (w : BitVec 4) : Decoded Phase :=
  match w.toNat with
  | 0 => .ok .idle
  | 1 => .ok .check
  | 2 => .ok .wait
  | 3 => .ok .pre
  | 4 => .ok .enc
  | 5 => .ok .xreq
  | 6 => .ok .xwait
  | 7 => .ok .dec
  | 8 => .ok .post
  | 9 => .ok .append
  | 10 => .ok .done
  | _ => .rejected .unassignedPhase

/-- R106: the operation by `sel`; a REG address must be mapped (R70, R112). -/
def decodeBus (w : BitVec 99) : Decoded Instr :=
  match (busSel w).toNat with
  | 0 =>
    match Reg.ofAddr (busAddr w) with
    | some r => .ok (.rdReg r)
    | none => .rejected .unmappedRegister
  | 1 =>
    match Reg.ofAddr (busAddr w) with
    | some r => .ok (.wrReg r (busWdata w))
    | none => .rejected .unmappedRegister
  | 2 => .ok (.rdTraj (busAddr w))
  | 3 => .ok (.wrTraj (busAddr w) (busWdata w))
  | 4 => .ok (.rdTs (busAddr w))
  | _ => .rejected .illegalSelector

/-- The decoder: each format by its own table (R113, R116). -/
def decode : InstrWord → Decoded Instr
  | .bus w => decodeBus w
  | .cmd w => (decodeCommand w).map Command.toInstr
  | .phase w => (decodePhase w).map Phase.toInstr

/-! ### Encoder, from the same tables -/

/-- R109, R110. -/
def encodeCommand : Command → BitVec 16
  | .ckinit var => (0x01 : Byte) ++ ((0 : BitVec 7) ++ var.code)
  | .ckbyte b => (0x02 : Byte) ++ b
  | .ckbuf var buf n => (0x03 : Byte) ++ (var.code ++ buf.code ++ (0 : BitVec 2) ++ n)
  | .enc => 0x1000
  | .dec => 0x1100
  | .start => 0x2000

/-- The word of an instruction. `wdata` is ignored on a read (R105): the encoder writes 0. -/
def encode : Instr → InstrWord
  | .rdReg r => .bus (busWord 0 r.addr 0)
  | .wrReg r wdata => .bus (busWord 1 r.addr wdata)
  | .rdTraj idx => .bus (busWord 2 idx 0)
  | .wrTraj idx wdata => .bus (busWord 3 idx wdata)
  | .rdTs idx => .bus (busWord 4 idx 0)
  | .ckinit var => .cmd (encodeCommand (.ckinit var))
  | .ckbyte b => .cmd (encodeCommand (.ckbyte b))
  | .ckbuf var buf n => .cmd (encodeCommand (.ckbuf var buf n))
  | .enc => .cmd (encodeCommand .enc)
  | .dec => .cmd (encodeCommand .dec)
  | .start => .cmd (encodeCommand .start)
  | .phIdle => .phase Phase.idle.code
  | .phCheck => .phase Phase.check.code
  | .phWait => .phase Phase.wait.code
  | .phPre => .phase Phase.pre.code
  | .phEnc => .phase Phase.enc.code
  | .phXreq => .phase Phase.xreq.code
  | .phXwait => .phase Phase.xwait.code
  | .phDec => .phase Phase.dec.code
  | .phPost => .phase Phase.post.code
  | .phAppend => .phase Phase.append.code
  | .phDone => .phase Phase.done.code

/-! ### The opcode table's words -/

/-- The encoded instruction whose opcode-table bits are `w`, `nbits` of them in whole bytes: a CMD row
has 16; a BUS row has the 3 bits of `sel` and a PHASE row 4, so both take 8. R113 tells these two apart by
where they occur, not by their bits: in 8 bits, 0 to 4 are read as the five legal `sel`, 5 to 15 as PHASE
codes, anything above as no instruction (log 3). Operand bits are 0. With 4 bits the word is a PHASE code,
with 3 a `sel`, with more than 16 a whole BUS word. -/
def tableWord (nbits w : Nat) : InstrWord :=
  if nbits = 16 then .cmd (BitVec.ofNat 16 w)
  else if 16 < nbits then .bus (BitVec.ofNat 99 w)
  else if nbits = 4 then .phase (BitVec.ofNat 4 w)
  else if nbits = 3 then .bus (busWord (BitVec.ofNat 3 w) 0 0)
  else if w < 5 then .bus (busWord (BitVec.ofNat 3 w) 0 0)
  else if w < 16 then .phase (BitVec.ofNat 4 w)
  else .bus (busWord 7 0 0)

/-- The instruction the decoder reads from an opcode-table word. -/
def decodeTableWord (nbits w : Nat) : Option Instr :=
  match decode (tableWord nbits w) with
  | .ok i => some i
  | .rejected _ => none

end Sys2Proof
end

