-- ==== Sys2Proof/Machine/State.lean ====
section
/-! DEFINITION. The state of the block (10_state.md): the registers of R21, the memories of R43 and R44,
the hidden state of R45, and the model's own fields: what acts next, the clock's coming answers, the
counter of free values, the last answer of the host port and the trace of R220. All of it plain data. -/

namespace Sys2Proof.Machine

/-- STATE: Idle = 0, Running = 1, Finished = 2; the value 3 is never taken (R27). -/
inductive RunState
  | idle
  | running
  | finished
deriving DecidableEq, Repr

/-- A memory: the listed (entry index, value) pairs. The form is canonical (`Mem.wf`): indices strictly
rising, no listed value equal to what an unlisted entry reads as. An address of TRAJ or TS is the index of
an entry, never of a byte (R70, R76; log 6). -/
abbrev Mem (w : Nat) := List (Nat × BitVec w)

/-- What an entry nothing has written reads as. R43, R44 and U1 leave it open: DESIGN CHOICE 0, unsafe
(log 5). -/
def Mem.unlisted {w : Nat} : BitVec w := 0

/-- The canonical form, from an index that every listed index must reach. -/
def Mem.wfFrom {w : Nat} (low : Nat) : Mem w → Bool
  | [] => true
  | (a, v) :: rest => decide (low ≤ a) && decide (v ≠ Mem.unlisted) && Mem.wfFrom (a + 1) rest

/-- The canonical form. -/
def Mem.wf {w : Nat} (m : Mem w) : Bool := Mem.wfFrom 0 m

/-- Every listed index is below the memory's capacity. -/
def Mem.within {w : Nat} (cap : Nat) (m : Mem w) : Bool := m.all fun cell => decide (cell.1 < cap)

/-- The status of a transport answer (R86). -/
inductive XferStatus
  | ok
  | err
deriving DecidableEq, Repr

/-- What the transport answers: `(status, count[3:0], in[0..13])` (R86). -/
structure XferAnswer where
  status : XferStatus
  count : BitVec 4
  data : Frame
deriving DecidableEq, Repr

/-- The transfer in flight (R45 a): its number, the request data, and the transport's answer once it has
come and phase XWAIT has not yet consumed it. -/
structure Transfer where
  serial : Nat
  out : Frame
  answer : Option XferAnswer
deriving DecidableEq, Repr

/-- The status of a host transaction (R71). -/
inductive BusStatus
  | ok
  | err
deriving DecidableEq, Repr

/-- What the host port answers: `(status, rdata[63:0])` (R71). -/
structure BusAnswer where
  status : BusStatus
  rdata : DWord
deriving DecidableEq, Repr

/-- What acts next (R8, R81, R260): SEQ, a HOST transaction, TRANSPORT answering the request of a number,
or the reset input (log 1). -/
inductive Input
  | seq
  | host (w : BitVec 99)
  | transport (serial : Nat) (a : XferAnswer)
  | reset
deriving DecidableEq, Repr

/-- The events a run makes observable (R220, log 16). -/
inductive Event
  | xferReq (iter : Word) (out : Frame)
  | xferAns (iter : Word) (a : XferAnswer)
  | row (iter : Word) (tPre tPost : DWord) (valA valB decA decB : Word)
deriving DecidableEq, Repr

/-- The complete state (R20), and the model's own fields. -/
structure State where
  /-- ACC (R22). -/
  acc : Half
  /-- HDR0..HDR3 (R23). -/
  hdr0 : Byte
  hdr1 : Byte
  hdr2 : Byte
  hdr3 : Byte
  /-- VALA, VALB (R24). -/
  valA : Word
  valB : Word
  /-- DECA, DECB (R25). -/
  decA : Word
  decB : Word
  /-- TXBUF, RXBUF (R26). -/
  txbuf : Frame
  rxbuf : Frame
  /-- STATE (R27). -/
  runState : RunState
  /-- PHASE, the sequencer's program counter (R28). -/
  phase : Phase
  /-- ITER (R29). -/
  iter : Word
  /-- CFG (R31). -/
  cfg : Word
  /-- CK_VAR (R32). -/
  ckVar : Variant
  /-- PERIOD (R33). -/
  period : Word
  /-- COUNT (R34). -/
  count : Word
  /-- DURATION (R35). -/
  duration : DWord
  /-- TRAJ_LEN (R36). -/
  trajLen : Word
  /-- TS_LEN (R37). -/
  tsLen : Word
  /-- ERRCODE (R38). -/
  errCode : BitVec 4
  /-- ERRINFO (R39). -/
  errInfo : Word
  /-- T_START, T_PRE, T_POST (R40). -/
  tStart : DWord
  tPre : DWord
  tPost : DWord
  /-- DEADLINE (R41). -/
  deadline : DWord
  /-- TRAJ (R43). -/
  traj : Mem 32
  /-- TS (R44). -/
  ts : Mem 64
  /-- The pending transfer (R45 a). -/
  pending : Option Transfer
  /-- `clk_last`, state of the environment (R45 b). -/
  clkLast : DWord
  /-- MODEL: what acts next, oldest first; SEQ acts when it is empty (log 1). -/
  inputs : List Input
  /-- MODEL: the clock's coming answers; free values once it is empty (log 7). -/
  clockScript : List DWord
  /-- MODEL: the counter free values are drawn with (log 7). -/
  draws : Nat
  /-- MODEL: how many transfer requests were issued (log 8). -/
  xferCount : Nat
  /-- MODEL: the last answer of the host port, an output of R71 (log 10). -/
  answer : Option BusAnswer
  /-- MODEL: the trace of R220, oldest first (log 16). -/
  events : List Event
deriving DecidableEq, Repr

/-- Why the machine stops with a fault. The spec gives the block no fault of its own: BusErr, the
ConfigurationError and the abort are next states (R231). -/
inductive Fault
  /-- Phase ENC in a state with ITER >= TRAJ_CAP, where `MemRead(TRAJ, ITER, 4)` is outside its domain
  (R72). No reachable state does this (R216). Safe. -/
  | trajIndexOutOfRange
  /-- Phase APPEND in a state where an index of `MemWrite(TS, ..)` is at or above TS_CAP (R72). No reachable
  state does this (R216). Safe. -/
  | tsIndexOutOfRange
deriving DecidableEq, Repr

/-- Why an instruction has no meaning. -/
inductive Refusal
  /-- Raised by `exec` alone, for an instruction not modelled yet; no instruction is. Safe. -/
  | notModelled (mnemonic : String)
deriving DecidableEq, Repr

/-- Fourteen bytes of zeros. -/
def zeroFrame : Frame := Vector.replicate 14 0

/-- The values chosen at reset for the cells R47 leaves unspecified: DESIGN CHOICE 0, unsafe (log 4). -/
def zeroResetData : ResetData where
  acc := 0
  hdr0 := 0
  hdr1 := 0
  hdr2 := 0
  hdr3 := 0
  valA := 0
  valB := 0
  decA := 0
  decB := 0
  txbuf := zeroFrame
  rxbuf := zeroFrame
  tStart := 0
  tPre := 0
  tPost := 0
  deadline := 0
  traj := []

/-- The machine right after reset: R47, with the values of `zeroResetData` for what R47 leaves unspecified
(log 4), nothing listed in TRAJ and TS (log 5), and no input waiting (log 1, log 2). -/
def State.reset : State where
  acc := zeroResetData.acc
  hdr0 := zeroResetData.hdr0
  hdr1 := zeroResetData.hdr1
  hdr2 := zeroResetData.hdr2
  hdr3 := zeroResetData.hdr3
  valA := zeroResetData.valA
  valB := zeroResetData.valB
  decA := zeroResetData.decA
  decB := zeroResetData.decB
  txbuf := zeroResetData.txbuf
  rxbuf := zeroResetData.rxbuf
  runState := .idle
  phase := .idle
  iter := 0
  cfg := 0
  ckVar := .crc16
  period := 0
  count := 0
  duration := 0
  trajLen := 0
  tsLen := 0
  errCode := 0
  errInfo := 0
  tStart := zeroResetData.tStart
  tPre := zeroResetData.tPre
  tPost := zeroResetData.tPost
  deadline := zeroResetData.deadline
  traj := zeroResetData.traj
  ts := []
  pending := none
  clkLast := 0
  inputs := []
  clockScript := []
  draws := 0
  xferCount := 0
  answer := none
  events := []

end Sys2Proof.Machine
end

