-- ==== Sys2Proof/Machine/Crc.lean ====
section
/-! DEFINITION. The pure functions of the checksum engine (40_checksum.md R131 to R135) and of the frame
codec (41_framecodec.md R150, R154), over the CRC parameters as an argument. -/

namespace Sys2Proof.Machine

/-- One shift step: the bit shifted out is tested and dropped, a 0 enters at bit 0 (R131). -/
def crcBit (p : CrcParams) (a : Half) : Half :=
  if a.msb then (a <<< 1) ^^^ p.poly else a <<< 1

/-- `n` shift steps. -/
def crcShift (p : CrcParams) : Nat → Half → Half
  | 0, a => a
  | n + 1, a => crcShift p n (crcBit p a)

/-- Absorbs a byte: xor into the top 8 bits, then eight shift steps (R132). -/
def crcByte (p : CrcParams) (a : Half) (b : Byte) : Half :=
  crcShift p 8 (a ^^^ (b.setWidth 16 <<< 8))

/-- The accumulator after absorbing `m` in index order, from `a`. -/
def crcFrom (p : CrcParams) (a : Half) (m : List Byte) : Half :=
  m.foldl (crcByte p) a

/-- `crc_acc(m)` (R133). -/
def crcAcc (p : CrcParams) (m : List Byte) : Half :=
  crcFrom p p.seed m

/-- `crc16(m)` (R133). -/
def crc16 (p : CrcParams) (m : List Byte) : Half :=
  crcAcc p m ^^^ p.xorOut

/-- `add_byte(a, b)`: the low bytes' sum mod 256, zero-extended (R134). -/
def addByte (a : Half) (b : Byte) : Half :=
  (a.setWidth 8 + b).setWidth 16

/-- `ADD_SEED` of R5. -/
def addSeed : Half := 0

/-- `add8(m)` (R134). -/
def add8 (m : List Byte) : Half :=
  m.foldl addByte addSeed

/-- The accumulator a strategy starts from (R136). -/
def seedOf (p : CrcParams) : Variant → Half
  | .crc16 => p.seed
  | .add8 => addSeed

/-- The strategy's absorption of one byte (R137). -/
def absorb (p : CrcParams) : Variant → Half → Byte → Half
  | .crc16, a, b => crcByte p a b
  | .add8, a, b => addByte a b

/-- `fin(var, a)`, what the view CKSUM shows (R135). -/
def fin (p : CrcParams) : Variant → Half → Half
  | .crc16, a => a ^^^ p.xorOut
  | .add8, a => a

/-- The four bytes of a value, most significant first (R73, R102). -/
def valueBytes (v : Word) : List Byte :=
  [v.extractLsb' 24 8, v.extractLsb' 16 8, v.extractLsb' 8 8, v.extractLsb' 0 8]

/-- The two bytes of a checksum, high byte first (R74, R103). -/
def checksumBytes (c : Half) : List Byte :=
  [c.extractLsb' 8 8, c.extractLsb' 0 8]

/-- `body(h0..h3, a, b)`: the 12 bytes before the checksum field (R150). -/
def body (h0 h1 h2 h3 : Byte) (a b : Word) : List Byte :=
  [h0, h1, h2, h3] ++ valueBytes a ++ valueBytes b

/-- `frame(h0..h3, a, b)`: the body and its crc16, high byte first (R150). -/
def frame (p : CrcParams) (h0 h1 h2 h3 : Byte) (a b : Word) : Frame :=
  ⟨(body h0 h1 h2 h3 a b ++ checksumBytes (crc16 p (body h0 h1 h2 h3 a b))).toArray, rfl⟩

/-- The 32-bit value at offset `o`, most significant byte first (R102). -/
def valueAt (r : Frame) (o : Fin 11) : Word :=
  r.get ⟨o.val, by omega⟩ ++ r.get ⟨o.val + 1, by omega⟩ ++ r.get ⟨o.val + 2, by omega⟩
    ++ r.get ⟨o.val + 3, by omega⟩

/-- `values(r)`: the two values of a frame; header and checksum are not read (R104, R154, R156). -/
def values (r : Frame) : Word × Word :=
  (valueAt r 4, valueAt r 8)

end Sys2Proof.Machine
end

