-- ==== Sys2Proof/Machine/Flags.lean ====
section
/-! DEFINITION. The block's status flags (10_state.md R30), the fields of CFG (R31), and the validity of a
configuration (42_scheduler.md R194). There are no condition codes. -/

namespace Sys2Proof.Machine

/-- The code of STATE (R27). -/
def RunState.code : RunState → BitVec 2
  | .idle => 0
  | .running => 1
  | .finished => 2

/-- The scheduler state a phase belongs to (R28). -/
def phaseRunState : Phase → RunState
  | .idle => .idle
  | .check | .wait | .pre | .enc | .xreq | .xwait | .dec | .post | .append => .running
  | .done => .finished

/-- `x[STATUS] = zext_32({CK_VAR, ERRCODE, PHASE, STATE})` (R30). -/
def statusWord (s : State) : Word :=
  (s.ckVar.code ++ s.errCode ++ s.phase.code ++ s.runState.code).setWidth 32

/-- `RUNNING = (STATE = 1)` (R30). -/
def flagRunning (s : State) : Bool := decide (s.runState = .running)

/-- `DONE = (STATE = 2)` (R30). -/
def flagDone (s : State) : Bool := decide (s.runState = .finished)

/-- `ERR = (ERRCODE != 0)` (R30). -/
def flagErr (s : State) : Bool := decide (s.errCode ≠ 0)

/-- `RUNMODE = BY_DURATION`, bit 0 of CFG (R31). -/
def byDuration (s : State) : Bool := s.cfg.getLsbD 0

/-- `STAMPMODE = 1`, bit 1 of CFG (R31). -/
def twoStamps (s : State) : Bool := s.cfg.getLsbD 1

/-- `1 + STAMPMODE`, the stamps an iteration appends (R31, R194). -/
def stampsPerIter (s : State) : Nat := if twoStamps s then 2 else 1

/-- `cfg_valid`, in unbounded integers (R194). -/
def cfgValid (P : Params) (s : State) : Bool :=
  decide (s.period ≠ 0)
    && decide (s.trajLen.toNat ≤ P.trajCap)
    && (if byDuration s then
          decide (s.duration.toNat ≤ s.trajLen.toNat * s.period.toNat)
            && decide (s.duration.toNat ≤ P.tsCap / stampsPerIter s * s.period.toNat)
        else
          decide (s.count.toNat ≤ s.trajLen.toNat)
            && decide (stampsPerIter s * s.count.toNat ≤ P.tsCap))

end Sys2Proof.Machine
end

