-- ==== Sys2Proof/Machine/Ops.lean ====
section
/-! DEFINITION. The operations every meaning is written over: the memory primitives (20_memory.md R72),
the clock (R84), the answers of the host port (R71, 60_exceptions.md R232), the block's two error entries
(R236, R237), the end of a run, and reset (70_reset_and_hazards.md R260). There is no return from an error
(R240), so no operation beside the entries. -/

namespace Sys2Proof.Machine

/-! ### Memory -/

/-- The value of an entry. -/
def Mem.read {w : Nat} : Mem w → Nat → BitVec w
  | [], _ => Mem.unlisted
  | (b, v) :: rest, a => if a = b then v else Mem.read rest a

/-- Replaces an entry and keeps the canonical form: the value an unlisted entry reads as is not listed. -/
def Mem.write {w : Nat} : Mem w → Nat → BitVec w → Mem w
  | [], a, v => if v = Mem.unlisted then [] else [(a, v)]
  | (b, u) :: rest, a, v =>
    if a < b then (if v = Mem.unlisted then (b, u) :: rest else (a, v) :: (b, u) :: rest)
    else if a = b then (if v = Mem.unlisted then rest else (a, v) :: rest)
    else (b, u) :: Mem.write rest a v

/-- The memory of capacity `cap` that a list of writes leaves, in canonical form. -/
def Mem.ofWrites {w : Nat} (cap : Nat) (writes : List (Nat × BitVec w)) : Mem w :=
  writes.foldl (fun m cell => if cell.1 < cap then m.write cell.1 cell.2 else m) []

/-- `MemRead(TRAJ, a, 4)`, none outside its domain (R72). -/
def trajRead (P : Params) (a : Nat) (s : State) : Option Word :=
  if a < P.trajCap then some (s.traj.read a) else none

/-- `MemWrite(TRAJ, a, 4, v)`, inside its domain (R72). -/
def trajWrite (a : Nat) (v : Word) (s : State) : State := { s with traj := s.traj.write a v }

/-- `MemRead(TS, a, 8)` (R72). -/
def tsRead (a : Nat) (s : State) : DWord := s.ts.read a

/-- `MemWrite(TS, a, 8, v)`, none outside its domain (R72). -/
def tsWrite (P : Params) (a : Nat) (v : DWord) (s : State) : Option State :=
  if a < P.tsCap then some { s with ts := s.ts.write a v } else none

/-! ### The clock -/

/-- The value the clock offers next: the script's, or a free value (R84, U7, log 7). -/
def clockOffer (s : State) : DWord :=
  match s.clockScript with
  | [] => Config.clockDraw s.draws
  | t :: _ => t

/-- The value one `now()` returns: never below `clk_last` (R84). -/
def nowValue (s : State) : DWord :=
  if s.clkLast ≤ clockOffer s then clockOffer s else s.clkLast

/-- The state after one `now()`: `clk_last` is the value returned (R45 b, R84). -/
def afterNow (s : State) : State :=
  { s with
    clkLast := nowValue s
    clockScript := s.clockScript.tail
    draws := s.draws + 1 }

/-! ### The host port -/

/-- The answer `OK` with this read data (R71; 0 for a write). -/
def answerOk (rdata : DWord) (s : State) : State :=
  { s with answer := some { status := .ok, rdata := rdata } }

/-- `raise BusErr`: the answer is `ERR` with `rdata = 0`, and nothing changes (R71, R232). -/
def raiseBusErr (s : State) : State :=
  { s with answer := some { status := .err, rdata := 0 } }

/-- A command word's effect: it is the write to CMD that carries it, refused while STATE = Running
(R108, R172, R173 b), answered OK otherwise. -/
def whenNotRunning (effect : State → State) (s : State) : State :=
  if s.runState = .running then raiseBusErr s else answerOk 0 (effect s)

/-! ### Errors and the end of a run -/

/-- `raise Abort(code, info)`, the block's trap entry (R236, R211): nothing is saved, there is no handler;
the sequencer stops. -/
def raiseAbort (code : BitVec 4) (info : Word) (s : State) : State :=
  { s with errCode := code, errInfo := info, runState := .finished, phase := .done }

/-- ConfigurationError: the run never starts (R195, R237). -/
def raiseConfigError (s : State) : State :=
  { s with errCode := 1, errInfo := 0 }

/-- Normal termination (R200, R202). -/
def finishRun (s : State) : State :=
  { s with runState := .finished, phase := .done }

/-- `pc <- P` (R7). -/
def goto (p : Phase) (s : State) : State :=
  { s with phase := p }

/-- Records an event (R220). -/
def emit (e : Event) (s : State) : State :=
  { s with events := s.events ++ [e] }

/-! ### Reset -/

/-- The reset event, at any point of a run: the values of R47, `d` in the cells R47 leaves unspecified, the
pending transfer forgotten (R260, R261). TS keeps its entries, unreadable as TS_LEN = 0 (R261). The
environment's and the model's own fields are not the block's and stay, but that no transaction has been
answered since (log 12). -/
def applyReset (P : Params) (d : ResetData) (s : State) : State where
  acc := d.acc
  hdr0 := d.hdr0
  hdr1 := d.hdr1
  hdr2 := d.hdr2
  hdr3 := d.hdr3
  valA := d.valA
  valB := d.valB
  decA := d.decA
  decB := d.decB
  txbuf := d.txbuf
  rxbuf := d.rxbuf
  runState := .idle
  phase := .idle
  iter := 0
  cfg := 0
  ckVar := .crc16
  period := 0
  count := 0
  duration := 0
  trajLen := 0
  tsLen := 0
  errCode := 0
  errInfo := 0
  tStart := d.tStart
  tPre := d.tPre
  tPost := d.tPost
  deadline := d.deadline
  traj := Mem.ofWrites P.trajCap d.traj
  ts := s.ts
  pending := none
  clkLast := s.clkLast
  inputs := s.inputs
  clockScript := s.clockScript
  draws := s.draws + 1
  xferCount := s.xferCount
  answer := none
  events := s.events

end Sys2Proof.Machine
end

