-- ==== Sys2Proof/Machine/Operands.lean ====
section
/-! DEFINITION. The operand forms: a register by name, with its width, access right and state lock
(10_state.md R21), its value as the host reads it (43_host_access.md R170) and a host write (R171, R173);
a frame buffer and its first bytes (R110, R138). -/

namespace Sys2Proof.Machine

/-- The host's right on a register (R21). -/
inductive Access
  | rw
  | ro
  | wo
deriving DecidableEq, Repr

/-- In which scheduler states a host write is accepted (R21, R173). -/
inductive Lock
  | idleOnly
  | notRunning
  | never
deriving DecidableEq, Repr

/-- The width `W` of a register (R21). -/
def regWidth : Reg → Nat
  | .cmd | .acc | .cksum => 16
  | .hdr0 | .hdr1 | .hdr2 | .hdr3 | .txbuf _ | .rxbuf _ => 8
  | .duration | .tStart | .tPre | .tPost | .deadline => 64
  | .status | .cfg | .period | .count | .trajLen | .iter | .tsLen | .errInfo => 32
  | .valA | .valB | .decA | .decB => 32

/-- The access column of R21. -/
def regAccess : Reg → Access
  | .cmd => .wo
  | .cfg | .period | .count | .duration | .trajLen => .rw
  | .hdr0 | .hdr1 | .hdr2 | .hdr3 | .valA | .valB | .txbuf _ | .rxbuf _ => .rw
  | .status | .iter | .tsLen | .errInfo | .tStart | .tPre | .tPost | .deadline => .ro
  | .decA | .decB | .acc | .cksum => .ro

/-- The lock column of R21. -/
def regLock : Reg → Lock
  | .cfg | .period | .count | .duration | .trajLen => .idleOnly
  | .cmd | .hdr0 | .hdr1 | .hdr2 | .hdr3 | .valA | .valB | .txbuf _ | .rxbuf _ => .notRunning
  | .status | .iter | .tsLen | .errInfo | .tStart | .tPre | .tPost | .deadline => .never
  | .decA | .decB | .acc | .cksum => .never

/-- Whether a lock is open in a scheduler state (R173). -/
def lockOpen : Lock → RunState → Bool
  | .idleOnly, r => decide (r = .idle)
  | .notRunning, r => decide (r ≠ .running)
  | .never, _ => false

/-- The checks (2) and (3) of R172: not read-only, and the lock open. -/
def writeAllowed (r : Reg) (s : State) : Bool :=
  decide (regAccess r ≠ .ro) && lockOpen (regLock r) s.runState

/-- The register as the host reads it, zero-extended (R42, R75, R77, R170). -/
def readReg (P : Params) (r : Reg) (s : State) : DWord :=
  match r with
  | .cmd => 0
  | .status => (statusWord s).setWidth 64
  | .cfg => s.cfg.setWidth 64
  | .period => s.period.setWidth 64
  | .count => s.count.setWidth 64
  | .duration => s.duration
  | .trajLen => s.trajLen.setWidth 64
  | .iter => s.iter.setWidth 64
  | .tsLen => s.tsLen.setWidth 64
  | .errInfo => s.errInfo.setWidth 64
  | .tStart => s.tStart
  | .tPre => s.tPre
  | .tPost => s.tPost
  | .deadline => s.deadline
  | .hdr0 => s.hdr0.setWidth 64
  | .hdr1 => s.hdr1.setWidth 64
  | .hdr2 => s.hdr2.setWidth 64
  | .hdr3 => s.hdr3.setWidth 64
  | .valA => s.valA.setWidth 64
  | .valB => s.valB.setWidth 64
  | .decA => s.decA.setWidth 64
  | .decB => s.decB.setWidth 64
  | .acc => s.acc.setWidth 64
  | .cksum => (fin P.crc s.ckVar s.acc).setWidth 64
  | .txbuf i => (s.txbuf.get i).setWidth 64
  | .rxbuf i => (s.rxbuf.get i).setWidth 64

/-- A plain store: the low `W` bits are kept; of CFG the two fields (R31, R77, R171). CMD and the read-only
registers have no plain store. -/
def writeReg (r : Reg) (wdata : DWord) (s : State) : State :=
  match r with
  | .cfg => { s with cfg := (wdata.setWidth 2).setWidth 32 }
  | .period => { s with period := wdata.setWidth 32 }
  | .count => { s with count := wdata.setWidth 32 }
  | .duration => { s with duration := wdata }
  | .trajLen => { s with trajLen := wdata.setWidth 32 }
  | .hdr0 => { s with hdr0 := wdata.setWidth 8 }
  | .hdr1 => { s with hdr1 := wdata.setWidth 8 }
  | .hdr2 => { s with hdr2 := wdata.setWidth 8 }
  | .hdr3 => { s with hdr3 := wdata.setWidth 8 }
  | .valA => { s with valA := wdata.setWidth 32 }
  | .valB => { s with valB := wdata.setWidth 32 }
  | .txbuf i => { s with txbuf := s.txbuf.set i.val (wdata.setWidth 8) }
  | .rxbuf i => { s with rxbuf := s.rxbuf.set i.val (wdata.setWidth 8) }
  | .cmd | .status | .iter | .tsLen | .errInfo | .tStart | .tPre | .tPost | .deadline => s
  | .decA | .decB | .acc | .cksum => s

/-- The buffer a CKBUF names (R110). -/
def bufferOf (b : BufSel) (s : State) : Frame :=
  match b with
  | .tx => s.txbuf
  | .rx => s.rxbuf

/-- The first `n` bytes of a buffer, in index order (R138). -/
def firstBytes (b : BufSel) (n : BitVec 4) (s : State) : List Byte :=
  (bufferOf b s).toList.take n.toNat

end Sys2Proof.Machine
end

