-- ==== Sys2Proof/Machine/Checksum.lean ====
section
/-! DEFINITION. The commands of the checksum engine: CKINIT (40_checksum.md R136), CKBYTE (R137), CKBUF
(R138). Each is the write to CMD that carries it. -/

namespace Sys2Proof.Machine

/-- Starts a checksum (R136). -/
def ckInit (p : CrcParams) (var : Variant) (s : State) : State :=
  { s with ckVar := var, acc := seedOf p var }

/-- Absorbs one byte by the strategy in CK_VAR (R137). -/
def ckByte (p : CrcParams) (b : Byte) (s : State) : State :=
  { s with acc := absorb p s.ckVar s.acc b }

/-- The checksum of the first `n` bytes of a buffer (R138). -/
def ckBuf (p : CrcParams) (var : Variant) (buf : BufSel) (n : BitVec 4) (s : State) : State :=
  { s with
    ckVar := var
    acc := (firstBytes buf n s).foldl (absorb p var) (seedOf p var) }

/-- CKINIT (R136). -/
def execCkinit (var : Variant) (s : State) : Host.Outcome State Fault Refusal :=
  .next (whenNotRunning (ckInit Config.params.crc var) s)

/-- CKBYTE (R137). -/
def execCkbyte (b : Byte) (s : State) : Host.Outcome State Fault Refusal :=
  .next (whenNotRunning (ckByte Config.params.crc b) s)

/-- CKBUF (R138); `n = 15` answers ERR (R110). -/
def execCkbuf (var : Variant) (buf : BufSel) (n : BitVec 4) (s : State) :
    Host.Outcome State Fault Refusal :=
  .next (if n.toNat ≤ frameLen then whenNotRunning (ckBuf Config.params.crc var buf n) s
    else raiseBusErr s)

end Sys2Proof.Machine
end

