-- ==== Sys2Proof/Machine/Codec.lean ====
section
/-! DEFINITION. The commands of the frame codec: ENC (41_framecodec.md R152) and DEC (R155). The two
operations are shared with the sequencer's phases ENC and DEC (42_scheduler.md R205, R212). -/

namespace Sys2Proof.Machine

/-- The pseudocode of ENC: all of TXBUF, and the engine's residue (R139, R152). -/
def encodeFrame (p : CrcParams) (s : State) : State :=
  { s with
    txbuf := frame p s.hdr0 s.hdr1 s.hdr2 s.hdr3 s.valA s.valB
    ckVar := .crc16
    acc := crcAcc p (body s.hdr0 s.hdr1 s.hdr2 s.hdr3 s.valA s.valB) }

/-- The pseudocode of DEC: the response's header and checksum are not examined (R155, R156). -/
def decodeFrame (s : State) : State :=
  { s with decA := (values s.rxbuf).1, decB := (values s.rxbuf).2 }

/-- ENC (R152). -/
def execEnc (s : State) : Host.Outcome State Fault Refusal :=
  .next (whenNotRunning (encodeFrame Config.params.crc) s)

/-- DEC (R155). -/
def execDec (s : State) : Host.Outcome State Fault Refusal :=
  .next (whenNotRunning decodeFrame s)

end Sys2Proof.Machine
end

