-- ==== Sys2Proof/Machine/Scheduler.lean ====
section
/-! DEFINITION. The periodic scheduler (42_scheduler.md): the command START (R193 to R196) and the eleven
phases of the sequencer (R197 to R215). A phase ends by writing PHASE, the program counter. Where the
sequencer has no step (PH.IDLE, PH.DONE, PH.XWAIT without an answer) nothing changes (log 9). -/

namespace Sys2Proof.Machine

/-! ### START -/

/-- `START` with a valid configuration: the run begins (R196). -/
def startRun (s : State) : State :=
  { afterNow s with
    tStart := nowValue s
    iter := 0
    tsLen := 0
    runState := .running
    phase := .check }

/-- `START`: refused out of Idle and after an error, otherwise accepted, whether or not the configuration
is valid (R193, R195, R196, R238 a). -/
def startCommand (P : Params) (s : State) : State :=
  if s.runState ≠ .idle then raiseBusErr s
  else if s.errCode ≠ 0 then raiseBusErr s
  else if cfgValid P s then answerOk 0 (startRun s)
  else answerOk 0 (raiseConfigError s)

/-- START (R193). -/
def execStart (s : State) : Host.Outcome State Fault Refusal :=
  .next (startCommand Config.params s)

/-! ### The phases -/

/-- Count termination, or the deadline `ITER * PERIOD`, exact in 64 bits (R198, R199, R200). -/
def checkStep (s : State) : State :=
  if byDuration s = false ∧ s.iter = s.count then finishRun s
  else { s with deadline := s.iter.setWidth 64 * s.period.setWidth 64, phase := .wait }

/-- One poll with the clock answering `n`: the duration test first, then the deadline test; `n` itself is
not stored (R201, R202, R203). -/
def pollStep (n : DWord) (s : State) : State :=
  if byDuration s = true ∧ s.duration ≤ n - s.tStart then finishRun s
  else if s.deadline ≤ n - s.tStart then goto .pre s
  else goto .wait s

/-- The trajectory sample into the value registers that AXIS_MAP drives, unscaled (R205, R206). -/
def loadSample (m : AxisMap) (v : Word) (s : State) : State :=
  match m with
  | .a => { s with valA := v }
  | .b => { s with valB := v }
  | .ab => { s with valA := v, valB := v }

/-- Phase ENC, none where ITER is outside TRAJ (R205, log 14). -/
def encStep (P : Params) (s : State) : Option State :=
  match trajRead P s.iter.toNat s with
  | some v => some (goto .xreq (encodeFrame P.crc (loadSample P.axisMap v s)))
  | none => none

/-- Hands TXBUF to the transport: a transfer is pending from here on (R207, R45 a). -/
def requestStep (s : State) : State :=
  emit (.xferReq s.iter s.txbuf)
    { s with
      pending := some { serial := s.xferCount, out := s.txbuf, answer := none }
      xferCount := s.xferCount + 1
      phase := .xwait }

/-- An answer is a success iff its status is XFER_OK and its count is 14 (R87). -/
def XferAnswer.success (a : XferAnswer) : Bool :=
  decide (a.status = .ok) && decide (a.count = 14)

/-- Phase XWAIT consumes the answer `a`: RXBUF takes it, or the run aborts and RXBUF holds free bytes
(R209, R211, U3, log 11). -/
def answerStep (a : XferAnswer) (s : State) : State :=
  let t := emit (.xferAns s.iter a) { s with pending := none }
  if a.success then { t with rxbuf := a.data, phase := .dec }
  else raiseAbort 3 s.iter
    { t with rxbuf := Config.failedRxbuf s.draws, draws := s.draws + 1 }

/-- Phase XWAIT: held until the transport has answered; there is no timeout (R209, R210, log 9). -/
def xwaitStep (s : State) : State :=
  match s.pending.bind (·.answer) with
  | some a => answerStep a s
  | none => s

/-- The stamps of an iteration appended to TS, none where an index is outside TS (R214, log 14). -/
def appendStamps (P : Params) (s : State) : Option State :=
  match tsWrite P s.tsLen.toNat s.tPre s with
  | none => none
  | some t => if twoStamps s then tsWrite P (s.tsLen.toNat + 1) s.tPost t else some t

/-- Phase APPEND: the stamps, the row, and the iteration counted (R214). -/
def appendStep (P : Params) (s : State) : Option State :=
  match appendStamps P s with
  | none => none
  | some t =>
    some (emit (.row s.iter s.tPre s.tPost s.valA s.valB s.decA s.decB)
      { t with
        tsLen := s.tsLen + BitVec.ofNat 32 (stampsPerIter s)
        iter := s.iter + 1
        phase := .check })

/-- PH.IDLE: the sequencer has no step (R197). -/
def execPhIdle (s : State) : Host.Outcome State Fault Refusal := .next s

/-- PH.CHECK (R198). -/
def execPhCheck (s : State) : Host.Outcome State Fault Refusal := .next (checkStep s)

/-- PH.WAIT (R201). -/
def execPhWait (s : State) : Host.Outcome State Fault Refusal :=
  .next (pollStep (nowValue s) (afterNow s))

/-- PH.PRE: the strobe is a fresh clock read (R204). -/
def execPhPre (s : State) : Host.Outcome State Fault Refusal :=
  .next { afterNow s with tPre := nowValue s, phase := .enc }

/-- PH.ENC (R205). -/
def execPhEnc (s : State) : Host.Outcome State Fault Refusal :=
  match encStep Config.params s with
  | some t => .next t
  | none => .fault .trajIndexOutOfRange

/-- PH.XREQ (R207). -/
def execPhXreq (s : State) : Host.Outcome State Fault Refusal := .next (requestStep s)

/-- PH.XWAIT (R209). -/
def execPhXwait (s : State) : Host.Outcome State Fault Refusal := .next (xwaitStep s)

/-- PH.DEC (R212). -/
def execPhDec (s : State) : Host.Outcome State Fault Refusal := .next (goto .post (decodeFrame s))

/-- PH.POST (R213). -/
def execPhPost (s : State) : Host.Outcome State Fault Refusal :=
  .next { afterNow s with tPost := nowValue s, phase := .append }

/-- PH.APPEND (R214). -/
def execPhAppend (s : State) : Host.Outcome State Fault Refusal :=
  match appendStep Config.params s with
  | some t => .next t
  | none => .fault .tsIndexOutOfRange

/-- PH.DONE: the sequencer has no step, for ever (R215). -/
def execPhDone (s : State) : Host.Outcome State Fault Refusal := .next s

end Sys2Proof.Machine
end

