-- ==== Sys2Proof/Machine/HostAccess.lean ====
section
/-! DEFINITION. The five host operations of 43_host_access.md: RD.REG (R170), WR.REG (R171 to R173, with
the command port of 30_encoding.md R108), RD.TRAJ (R174), WR.TRAJ (R175), RD.TS (R177). Each answers the
transaction it is: OK, or ERR with nothing changed (60_exceptions.md R232). -/

namespace Sys2Proof.Machine

/-- RD.REG of a mapped register: allowed in every scheduler state, no side effect (R170, R78). -/
def execRdReg (r : Reg) (s : State) : Host.Outcome State Fault Refusal :=
  .next (answerOk (readReg Config.params r s) s)

/-- The command of a legal command word (R108). -/
def execCommand (c : Command) (s : State) : Host.Outcome State Fault Refusal :=
  match c with
  | .ckinit var => execCkinit var s
  | .ckbyte b => execCkbyte b s
  | .ckbuf var buf n => execCkbuf var buf n s
  | .enc => execEnc s
  | .dec => execDec s
  | .start => execStart s

/-- WR.REG at the command port: the word is `wdata[15:0]` (R107, R108). -/
def writeCommand (wdata : DWord) (s : State) : Host.Outcome State Fault Refusal :=
  match decodeCommand (wdata.setWidth 16) with
  | .ok c => execCommand c s
  | .rejected _ => .next (raiseBusErr s)

/-- WR.REG of a mapped register: refused where R172 says so, a command at CMD, a plain store elsewhere
(R171, R172, R173). -/
def execWrReg (r : Reg) (wdata : DWord) (s : State) : Host.Outcome State Fault Refusal :=
  if writeAllowed r s then
    if r = .cmd then writeCommand wdata s else .next (answerOk 0 (writeReg r wdata s))
  else .next (raiseBusErr s)

/-- RD.TRAJ, in every scheduler state, below TRAJ_CAP (R174). -/
def readTrajectory (P : Params) (idx : Word) (s : State) : State :=
  match trajRead P idx.toNat s with
  | some v => answerOk (v.setWidth 64) s
  | none => raiseBusErr s

/-- RD.TRAJ (R174). -/
def execRdTraj (idx : Word) (s : State) : Host.Outcome State Fault Refusal :=
  .next (readTrajectory Config.params idx s)

/-- WR.TRAJ, in Idle only, below TRAJ_CAP; `wdata[63:32]` is ignored (R175, R173 a). -/
def writeTrajectory (P : Params) (idx : Word) (wdata : DWord) (s : State) : State :=
  if P.trajCap ≤ idx.toNat then raiseBusErr s
  else if s.runState ≠ .idle then raiseBusErr s
  else answerOk 0 (trajWrite idx.toNat (wdata.setWidth 32) s)

/-- WR.TRAJ (R175). -/
def execWrTraj (idx : Word) (wdata : DWord) (s : State) : Host.Outcome State Fault Refusal :=
  .next (writeTrajectory Config.params idx wdata s)

/-- RD.TS: not while Running, below TS_LEN (R177). -/
def execRdTs (idx : Word) (s : State) : Host.Outcome State Fault Refusal :=
  .next (if s.runState = .running then raiseBusErr s
    else if s.tsLen ≤ idx then raiseBusErr s
    else answerOk (tsRead idx.toNat s) s)

end Sys2Proof.Machine
end

