-- ==== Sys2Proof/Machine/Dispatch.lean ====
section
/-! DEFINITION. One arm per instruction. A host transaction or a command word answers at the host port; a
phase is one atomic step of the sequencer. -/

namespace Sys2Proof.Machine

def exec (i : Instr) (s : State) : Host.Outcome State Fault Refusal :=
  match i with
  | .rdReg r => Sys2Proof.Machine.execRdReg r s
  | .wrReg r wdata => Sys2Proof.Machine.execWrReg r wdata s
  | .rdTraj idx => Sys2Proof.Machine.execRdTraj idx s
  | .wrTraj idx wdata => Sys2Proof.Machine.execWrTraj idx wdata s
  | .rdTs idx => Sys2Proof.Machine.execRdTs idx s
  | .ckinit var => Sys2Proof.Machine.execCkinit var s
  | .ckbyte b => Sys2Proof.Machine.execCkbyte b s
  | .ckbuf var buf n => Sys2Proof.Machine.execCkbuf var buf n s
  | .enc => Sys2Proof.Machine.execEnc s
  | .dec => Sys2Proof.Machine.execDec s
  | .start => Sys2Proof.Machine.execStart s
  | .phIdle => Sys2Proof.Machine.execPhIdle s
  | .phCheck => Sys2Proof.Machine.execPhCheck s
  | .phWait => Sys2Proof.Machine.execPhWait s
  | .phPre => Sys2Proof.Machine.execPhPre s
  | .phEnc => Sys2Proof.Machine.execPhEnc s
  | .phXreq => Sys2Proof.Machine.execPhXreq s
  | .phXwait => Sys2Proof.Machine.execPhXwait s
  | .phDec => Sys2Proof.Machine.execPhDec s
  | .phPost => Sys2Proof.Machine.execPhPost s
  | .phAppend => Sys2Proof.Machine.execPhAppend s
  | .phDone => Sys2Proof.Machine.execPhDone s

end Sys2Proof.Machine
end

