-- ==== Sys2Proof/Machine/Agents.lean ====
section
/-! DEFINITION. The turns of the agents (00_scope.md R8, 20_memory.md R81): each is one atomic step, and
the oldest entry of `inputs` says whose turn it is (log 1). -/

namespace Sys2Proof.Machine

/-- A HOST transaction: the instruction its word decodes to, or ERR for an illegal encoding (R112). -/
def hostTurn (w : BitVec 99) (s : State) : Host.Outcome State Fault Refusal :=
  match decode (.bus w) with
  | .ok i => exec i s
  | .rejected _ => .next (raiseBusErr s)

/-- A SEQ step: the only fetch is the read of PHASE (R90, R192). -/
def seqTurn (s : State) : Host.Outcome State Fault Refusal :=
  match decode (.phase s.phase.code) with
  | .ok i => exec i s
  | .rejected _ => .next s

/-- TRANSPORT answers the request number `serial`. The answer waits for phase XWAIT; a second answer, and
a late answer to a request that is no longer pending, are discarded (R86, R261, log 8). -/
def transportTurn (serial : Nat) (a : XferAnswer) (s : State) : State :=
  match s.pending with
  | some x =>
    if x.serial = serial ∧ x.answer = none then { s with pending := some { x with answer := some a } }
    else s
  | none => s

/-- The reset event (R260, R261): the unspecified cells are free values (U1, log 12). -/
def resetTurn (s : State) : State := applyReset Config.params (Config.resetData s.draws) s

/-- One step of the whole: the turn the oldest input names, or the sequencer's where none waits. -/
def turn (s : State) : Host.Outcome State Fault Refusal :=
  match s.inputs with
  | [] => seqTurn s
  | .seq :: rest => seqTurn { s with inputs := rest }
  | .host w :: rest => hostTurn w { s with inputs := rest }
  | .transport serial a :: rest => .next (transportTurn serial a { s with inputs := rest })
  | .reset :: rest => .next (resetTurn { s with inputs := rest })

/-- The state whose very next step runs the instruction of the word: a host transaction is the oldest
input; a command word is the write of it to CMD; a phase is the sequencer's turn with PHASE, and the STATE
that goes with it (R28). A PHASE code that is never taken is stored nowhere (log 2). -/
def placeWord (w : InstrWord) (s : State) : State :=
  match w with
  | .bus b => { s with inputs := .host b :: s.inputs }
  | .cmd c => { s with inputs := .host (busWord 1 Reg.cmd.addr (c.setWidth 64)) :: s.inputs }
  | .phase p =>
    match decodePhase p with
    | .ok ph =>
      { s with phase := ph, runState := phaseRunState ph, inputs := .seq :: s.inputs }
    | .rejected _ => s

end Sys2Proof.Machine
end

