-- ==== Sys2Proof/Machine/Step.lean ====
section
/-! DEFINITION. One step of the machine, and the placing of one instruction where the next step takes it
(log 2). -/

namespace Sys2Proof.Machine

/-- One atomic step of whichever agent acts next. -/
def step (s : State) : Host.Outcome State Fault Refusal := turn s

/-- `s` with the opcode-table word `w` where the next step fetches its instruction. -/
def State.withFetchWord (s : State) (nbits w : Nat) : State := placeWord (tableWord nbits w) s

end Sys2Proof.Machine
end

