-- ==== Sys2Proof/Machine/Assembler.lean ====
section
/-! DEFINITION. The host-side notation of 30_encoding.md R114 and R115: every line is one transaction, so a
program is a list of instructions. A command line is written as its command, which is the write to CMD that
carries it (log 19). -/

namespace Sys2Proof.Machine

/-- `CKSTR var, b0 .. bk`. -/
def asmCkstr (var : Variant) (bytes : List Byte) : List Instr :=
  .ckinit var :: bytes.map .ckbyte

/-- `SETF reg, literal`, the literal given as its binary32 pattern. -/
def asmSetf (r : Reg) (pattern : Word) : List Instr := [.wrReg r (pattern.setWidth 64)]

/-- A byte of a frame buffer, as a register. -/
def bufferReg : BufSel → Fin 14 → Reg
  | .tx, i => .txbuf i
  | .rx, i => .rxbuf i

/-- `LDBUF buf, b0 .. b13`, ascending. -/
def asmLdbuf (buf : BufSel) (f : Frame) : List Instr :=
  (List.finRange 14).map fun i => .wrReg (bufferReg buf i) ((f.get i).setWidth 64)

/-- `COPYBUF`: each byte of TXBUF is read and the value read is written to RXBUF. The values are those of the
state the copy starts in: no line of it changes TXBUF. -/
def asmCopybuf (s : State) : List Instr :=
  (List.finRange 14).flatMap fun i =>
    [.rdReg (.txbuf i), .wrReg (.rxbuf i) ((s.txbuf.get i).setWidth 64)]

/-- The line `WAITDONE` repeats. -/
def asmWaitdoneLine : Instr := .rdReg .status

/-- Whether `WAITDONE` stops at this value of STATUS: `value[1:0] = 2`. -/
def asmWaitdoneStops (value : DWord) : Bool := decide (value.extractLsb' 0 2 = 2)

/-- `VERIFYRX` (41_framecodec.md R160). -/
def asmVerifyrx : List Instr :=
  [.ckbuf .crc16 .rx 12, .rdReg .cksum, .rdReg (.rxbuf 12), .rdReg (.rxbuf 13)]

end Sys2Proof.Machine
end

