-- ==== Sys2Proof/Safety.lean ====
section
/-! DEFINITION. What counts as a safe state and a safe step, in the terms the statements use: the
invariants of 10_state.md R48 with the facts they rest on (42_scheduler.md R216, R217), the law of the
clock over the stamps, what the host may do (43_host_access.md R178), and which registers are frozen. -/

namespace Sys2Proof.Machine

/-- A step that ends in a next state. -/
def SafeStep (s : State) : Prop := ∃ t, step s = .next t

/-- The phases of an iteration that has passed WAIT: PRE to APPEND (R48 c). -/
def inIteration : Phase → Bool
  | .pre | .enc | .xreq | .xwait | .dec | .post | .append => true
  | .idle | .check | .wait | .done => false

/-- The phases in which DEADLINE is the current iteration's: WAIT to APPEND (R198). -/
def deadlineSet : Phase → Bool
  | .wait | .pre | .enc | .xreq | .xwait | .dec | .post | .append => true
  | .idle | .check | .done => false

/-- The phases in which T_PRE is the current iteration's: ENC to APPEND (R204). -/
def preStamped : Phase → Bool
  | .enc | .xreq | .xwait | .dec | .post | .append => true
  | .idle | .check | .wait | .pre | .done => false

/-- The invariant of every reachable state (R48 a to d), with what makes it inductive. -/
structure Inv (s : State) : Prop where
  /-- R48 (a). -/
  phase_state : s.runState = phaseRunState s.phase
  /-- R48 (b). -/
  series : s.tsLen.toNat = stampsPerIter s * s.iter.toNat
  series_cap : s.tsLen.toNat ≤ Config.tsCap
  /-- R29, R47: no iteration is counted before a run. -/
  idle_iter : s.runState = .idle → s.iter = 0
  /-- The configuration START checked (R194) is frozen (R48 g). -/
  valid : s.runState ≠ .idle → cfgValid Config.params s = true
  /-- R48 (c), first half. -/
  index : s.runState ≠ .idle → s.iter.toNat ≤ s.trajLen.toNat ∧ s.trajLen.toNat ≤ Config.trajCap
  /-- R48 (c), second half, and R216. -/
  in_iteration : inIteration s.phase = true →
    s.iter.toNat < s.trajLen.toNat ∧ stampsPerIter s * (s.iter.toNat + 1) ≤ Config.tsCap
  /-- R216, BY_COUNT. -/
  by_count : s.runState ≠ .idle → byDuration s = false →
    s.iter.toNat ≤ s.count.toNat ∧ (deadlineSet s.phase = true → s.iter.toNat < s.count.toNat)
  /-- R216, R217, BY_DURATION: iteration `i` runs only if `i * P < D`. -/
  by_duration : s.runState ≠ .idle → byDuration s = true →
    (inIteration s.phase = true → s.iter.toNat * s.period.toNat < s.duration.toNat) ∧
    (s.iter = 0 ∨ (s.iter.toNat - 1) * s.period.toNat < s.duration.toNat)
  /-- R199. -/
  deadline_eq : deadlineSet s.phase = true → s.deadline.toNat = s.iter.toNat * s.period.toNat
  /-- R200: a run by count that is not aborted ends at COUNT. -/
  completed : s.runState = .finished → s.errCode = 0 → byDuration s = false → s.iter = s.count
  /-- R48 (d). -/
  error : s.errCode = 0 ∨ (s.errCode = 1 ∧ s.runState = .idle) ∨ (s.errCode = 3 ∧ s.runState = .finished)
  /-- R45 (a): a pending transfer is visible as PHASE = XWAIT. -/
  transfer : s.pending.isSome = true ↔ s.phase = .xwait
  /-- R45 (a): its request data is TXBUF as it stood at XREQ. -/
  request : ∀ x, s.pending = some x → x.out = s.txbuf ∧ x.serial < s.xferCount
  /-- R31: the reserved bits of CFG read 0. -/
  cfg_reserved : s.cfg.toNat < 4
  /-- R22: in the ADD8 strategy ACC[15:8] = 0. -/
  add8_high : s.ckVar = .add8 → s.acc.toNat < 256
  /-- The memories are in canonical form and within their capacities (R43, R44). -/
  traj_wf : s.traj.wf = true
  traj_within : s.traj.within Config.trajCap = true
  ts_wf : s.ts.wf = true
  ts_within : s.ts.within Config.tsCap = true

/-- The clock's law over a run's stamps (R84; R48 e and f), with what makes it inductive. Index
`stampsPerIter s * i` of TS is the `t_pre` of iteration `i` (R214). -/
structure TimeInv (s : State) : Prop where
  start_past : s.runState ≠ .idle → s.tStart ≤ s.clkLast
  stamps_past : ∀ a < s.tsLen.toNat, s.ts.read a ≤ s.clkLast
  /-- R48 (e). -/
  ordered : ∀ a b, a ≤ b → b < s.tsLen.toNat → s.ts.read a ≤ s.ts.read b
  /-- The poll that left WAIT had reached the deadline (R201). -/
  reached : s.phase = .pre → s.deadline.toNat + s.tStart.toNat ≤ s.clkLast.toNat
  /-- R204: `T_PRE - T_START >= DEADLINE`. -/
  pre_late : preStamped s.phase = true → s.deadline.toNat + s.tStart.toNat ≤ s.tPre.toNat
  pre_past : preStamped s.phase = true → s.tPre ≤ s.clkLast
  pre_last : preStamped s.phase = true → ∀ a < s.tsLen.toNat, s.ts.read a ≤ s.tPre
  /-- R213. -/
  post_late : s.phase = .append → s.tPre ≤ s.tPost ∧ s.tPost ≤ s.clkLast
  /-- R48 (f). -/
  on_time : ∀ i < s.iter.toNat,
    i * s.period.toNat + s.tStart.toNat ≤ (s.ts.read (stampsPerIter s * i)).toNat

/-- A host transaction or the command word of one; the others are phases of the sequencer. -/
def isHost : Instr → Bool
  | .rdReg _ | .wrReg _ _ | .rdTraj _ | .wrTraj _ _ | .rdTs _ => true
  | .ckinit _ | .ckbyte _ | .ckbuf _ _ _ | .enc | .dec | .start => true
  | .phIdle | .phCheck | .phWait | .phPre | .phEnc | .phXreq | .phXwait => false
  | .phDec | .phPost | .phAppend | .phDone => false

/-- `i` is the command `c`, alone or as the write to CMD that carries it (R108). -/
def carries (i : Instr) (c : Command) : Bool :=
  decide (i = c.toInstr) ||
    match i with
    | .wrReg .cmd wdata => decide (decodeCommand (wdata.setWidth 16) = .ok c)
    | _ => false

/-- What R110, R172 and R193 ask of a command. -/
def commandAllowed (c : Command) (s : State) : Prop :=
  s.runState ≠ .running ∧ c.wellFormed = true ∧ (c = .start → s.runState = .idle ∧ s.errCode = 0)

/-- The table of R178, with the bounds of R174 to R177. -/
def hostAllowed (i : Instr) (s : State) : Prop :=
  match i with
  | .rdReg _ => True
  | .wrReg r wdata =>
    match r with
    | .cfg | .period | .count | .duration | .trajLen => s.runState = .idle
    | .hdr0 | .hdr1 | .hdr2 | .hdr3 | .valA | .valB | .txbuf _ | .rxbuf _ => s.runState ≠ .running
    | .cmd => ∃ c, decodeCommand (wdata.setWidth 16) = .ok c ∧ commandAllowed c s
    | .status | .iter | .tsLen | .errInfo | .tStart | .tPre | .tPost | .deadline => False
    | .decA | .decB | .acc | .cksum => False
  | .rdTraj idx => idx.toNat < Config.trajCap
  | .wrTraj idx _ => idx.toNat < Config.trajCap ∧ s.runState = .idle
  | .rdTs idx => s.runState ≠ .running ∧ idx < s.tsLen
  | .ckinit var => commandAllowed (.ckinit var) s
  | .ckbyte b => commandAllowed (.ckbyte b) s
  | .ckbuf var buf n => commandAllowed (.ckbuf var buf n) s
  | .enc => commandAllowed .enc s
  | .dec => commandAllowed .dec s
  | .start => commandAllowed .start s
  | .phIdle | .phCheck | .phWait | .phPre | .phEnc | .phXreq | .phXwait => False
  | .phDec | .phPost | .phAppend | .phDone => False

/-- CFG, PERIOD, COUNT, DURATION, TRAJ_LEN and all of TRAJ are the same (R48 g). -/
def ConfigFrozen (s t : State) : Prop :=
  t.cfg = s.cfg ∧ t.period = s.period ∧ t.count = s.count ∧ t.duration = s.duration ∧
    t.trajLen = s.trajLen ∧ t.traj = s.traj

/-- The phases a step of the sequencer may write, for each phase (R192); XWAIT again is the hold (R210). -/
def nextPhases : Phase → List Phase
  | .idle => [.idle]
  | .check => [.wait, .done]
  | .wait => [.wait, .pre, .done]
  | .pre => [.enc]
  | .enc => [.xreq]
  | .xreq => [.xwait]
  | .xwait => [.dec, .done, .xwait]
  | .dec => [.post]
  | .post => [.append]
  | .append => [.check]
  | .done => [.done]

/-- Runs instructions one after another, stopping at the first fault or refusal. -/
def execAll : List Instr → State → Host.Outcome State Fault Refusal
  | [], s => .next s
  | i :: rest, s =>
    match exec i s with
    | .next t => execAll rest t
    | .fault r => .fault r
    | .refused r => .refused r

end Sys2Proof.Machine
end

