-- ==== Sys2Proof/Certificates/Slice0/Obligations.lean ====
section
/-! DEFINITION. The statements for the provers. Each docstring names the rule or the section of spec/ it
formalises; a clause that rests on the model's own choice names its log entry. -/

open Sys2Proof Sys2Proof.Machine

/-! ### Encoding -/

/-- Decoding an encoded well-formed instruction gives it back, every operand at every value
(30_encoding.md sections 2 to 4). -/
def Obligations.DecodeEncodeGivesInstructionBack : Prop :=
  ∀ i : Instr, i.wellFormed = true → decode (encode i) = .ok i

/-- The other direction: what decodes is well formed and encodes to the word it came from, but for the write
data of a read, which is ignored (R105) and encoded as 0 (30_encoding.md sections 2 to 4). -/
def Obligations.EncodeDecodeGivesWordBack : Prop :=
  (∀ w i, decode (.cmd w) = .ok i → i.wellFormed = true ∧ encode i = .cmd w) ∧
  (∀ w i, decode (.phase w) = .ok i → i.wellFormed = true ∧ encode i = .phase w) ∧
  (∀ w i, decode (.bus w) = .ok i → i.wellFormed = true ∧
    encode i = .bus (busWord (busSel w) (busAddr w) (if (busSel w).getLsbD 0 then busWdata w else 0)))

/-- A command word decodes to a row's command exactly when the row's `match` and `mask` in the opcode table
select it and the row's constraint holds, with the operands at their bits: `var = w[0]` in CKINIT, the byte
`w[7:0]` in CKBYTE, `var = w[7]`, `buf = w[6]`, `n = w[3:0]` in CKBUF; and no other word decodes
(30_encoding.md section 3). -/
def Obligations.CommandDecodesByMatchAndMask : Prop :=
  ∀ w : BitVec 16,
    (∀ var, decodeCommand w = .ok (.ckinit var) ↔
      w &&& 0xFFFE = 0x0100 ∧ (var = .add8 ↔ w.getLsbD 0 = true)) ∧
    (∀ b, decodeCommand w = .ok (.ckbyte b) ↔ w &&& 0xFF00 = 0x0200 ∧ b.toNat = w.toNat % 256) ∧
    (∀ var buf n, decodeCommand w = .ok (.ckbuf var buf n) ↔
      w &&& 0xFF30 = 0x0300 ∧ (var = .add8 ↔ w.getLsbD 7 = true) ∧ (buf = .rx ↔ w.getLsbD 6 = true) ∧
        n.toNat = w.toNat % 16 ∧ n.toNat ≤ 14) ∧
    (decodeCommand w = .ok .enc ↔ w &&& 0xFFFF = 0x1000) ∧
    (decodeCommand w = .ok .dec ↔ w &&& 0xFFFF = 0x1100) ∧
    (decodeCommand w = .ok .start ↔ w &&& 0xFFFF = 0x2000)

/-- Words written out from the encodings, the eleven phase codes among them, decode to the instructions they
stand for, and five illegal ones are rejected by name (30_encoding.md sections 2 to 5). -/
def Obligations.SampleWordsDecode : Prop :=
  decode (.bus 0x190000000000000000) = .ok (.rdReg .cksum) ∧
  decode (.bus 0x10000000300000000000003E8) = .ok (.wrReg .period 1000) ∧
  decode (.bus 0x28000000100000000FFFFFFFF) = .ok (.rdTraj 0x80000001) ∧
  decode (.bus 0x30000000200000000BF800000) = .ok (.wrTraj 2 0xBF800000) ∧
  decode (.bus 0x4000000050000000000000000) = .ok (.rdTs 5) ∧
  decode (.bus 0x5000000010000000000000000) = .rejected .illegalSelector ∧
  decode (.bus 0x1A0000000000000000) = .rejected .unmappedRegister ∧
  decode (.cmd 0x0101) = .ok (.ckinit .add8) ∧
  decode (.cmd 0x0241) = .ok (.ckbyte 0x41) ∧
  decode (.cmd 0x034C) = .ok (.ckbuf .crc16 .rx 12) ∧
  decode (.cmd 0x030F) = .rejected .bufferLength ∧
  decode (.cmd 0x2001) = .rejected .reservedArgument ∧
  decode (.phase 0) = .ok .phIdle ∧ decode (.phase 1) = .ok .phCheck ∧ decode (.phase 2) = .ok .phWait ∧
  decode (.phase 3) = .ok .phPre ∧ decode (.phase 4) = .ok .phEnc ∧ decode (.phase 5) = .ok .phXreq ∧
  decode (.phase 6) = .ok .phXwait ∧ decode (.phase 7) = .ok .phDec ∧ decode (.phase 8) = .ok .phPost ∧
  decode (.phase 9) = .ok .phAppend ∧ decode (.phase 10) = .ok .phDone ∧
  decode (.phase 11) = .rejected .unassignedPhase

/-- A REG address names the register whose number it is, the numbers written out from the map, and exactly
the mapped addresses name one (10_state.md section 1, the map and the list of addresses that hold nothing). -/
def Obligations.RegisterMapIsExact : Prop :=
  let number : Reg → Nat
    | .cmd => 0x00 | .status => 0x01 | .cfg => 0x02 | .period => 0x03 | .count => 0x04
    | .duration => 0x05 | .trajLen => 0x06 | .iter => 0x07 | .tsLen => 0x08 | .errInfo => 0x09
    | .tStart => 0x0A | .tPre => 0x0B | .tPost => 0x0C | .deadline => 0x0D
    | .hdr0 => 0x10 | .hdr1 => 0x11 | .hdr2 => 0x12 | .hdr3 => 0x13 | .valA => 0x14 | .valB => 0x15
    | .decA => 0x16 | .decB => 0x17 | .acc => 0x18 | .cksum => 0x19
    | .txbuf i => 0x40 + i.val | .rxbuf i => 0x50 + i.val
  (∀ r, r.addr.toNat = number r) ∧
  (∀ a r, Reg.ofAddr a = some r ↔ a.toNat = number r) ∧
  (∀ a : Word, (Reg.ofAddr a).isSome = true ↔
    a.toNat ≤ 0x0D ∨ (0x10 ≤ a.toNat ∧ a.toNat ≤ 0x19) ∨ (0x40 ≤ a.toNat ∧ a.toNat ≤ 0x4D) ∨
      (0x50 ≤ a.toNat ∧ a.toNat ≤ 0x5D))

/-! ### One step runs the decoded instruction -/

/-- One step runs the decoded instruction. A waiting host transaction whose word decodes to `i`: the step is
`exec i`, the transaction taken; one whose word is illegal answers ERR with rdata 0, and nothing else changes.
The sequencer's turn: the step is `exec` of the instruction that the code in PHASE decodes to
(30_encoding.md section 5, 20_memory.md section 4; that a list of inputs says whose turn it is, and that the
sequencer moves when none waits, is the model's, log 1). -/
def Obligations.StepRunsTheDecodedInstruction : Prop :=
  (∀ s w rest, s.inputs = .host w :: rest →
    (∀ i, decode (.bus w) = .ok i → step s = exec i { s with inputs := rest }) ∧
    (∀ why, decode (.bus w) = .rejected why →
      step s = .next { s with inputs := rest, answer := some { status := .err, rdata := 0 } })) ∧
  (∀ s i, decode (.phase s.phase.code) = .ok i →
    (s.inputs = [] → step s = exec i s) ∧
    (∀ rest, s.inputs = .seq :: rest → step s = exec i { s with inputs := rest }))

/-- R108: a WR.REG to address 0x00 that is not refused runs the command of `wdata[15:0]`, whatever
`wdata[63:16]` holds, and answers OK, but that START has conditions of its own; an illegal word, and any word
while Running, answers ERR and changes nothing. -/
def Obligations.CommandPortRunsTheCommand : Prop :=
  ∀ (s : State) (wdata : DWord),
    (∀ c, s.runState ≠ .running → decodeCommand (wdata.setWidth 16) = .ok c →
      exec (.wrReg .cmd wdata) s = exec c.toInstr s ∧
      (c ≠ .start → ∃ t, exec c.toInstr s = .next t ∧
        t.answer = some { status := .ok, rdata := 0 })) ∧
    (∀ why, decodeCommand (wdata.setWidth 16) = .rejected why →
      exec (.wrReg .cmd wdata) s = .next { s with answer := some { status := .err, rdata := 0 } }) ∧
    (s.runState = .running →
      exec (.wrReg .cmd wdata) s = .next { s with answer := some { status := .err, rdata := 0 } })

/-! ### Host access -/

/-- R178, R232: every host operation completes; it answers OK exactly where the table of R178 says so, and
where it answers ERR the read data is 0 and nothing else changes. -/
def Obligations.HostAnswersOkExactlyWhenAllowed : Prop :=
  ∀ (i : Instr) (s : State), isHost i = true →
    ∃ t a, exec i s = .next t ∧ t.answer = some a ∧
      (a.status = .ok ↔ hostAllowed i s) ∧
      (a.status = .err → a.rdata = 0 ∧ t = { s with answer := some { status := .err, rdata := 0 } })

/-- RD.REG of every mapped register answers its value zero-extended, in every scheduler state, and changes
nothing but the answer; STATUS packs CK_VAR, ERRCODE, PHASE and STATE by the numbers written out
(43_host_access.md, RD.REG; 10_state.md, STATE, PHASE, STATUS, CMD and CKSUM). -/
def Obligations.RegisterReadAnswersItsValue : Prop :=
  ∀ s : State,
    let reads (r : Reg) (v : Nat) : Prop := ∃ d : DWord, d.toNat = v ∧
      exec (.rdReg r) s = .next { s with answer := some { status := .ok, rdata := d } }
    let stateNumber : Nat := match s.runState with | .idle => 0 | .running => 1 | .finished => 2
    let phaseNumber : Nat := match s.phase with
      | .idle => 0 | .check => 1 | .wait => 2 | .pre => 3 | .enc => 4 | .xreq => 5
      | .xwait => 6 | .dec => 7 | .post => 8 | .append => 9 | .done => 10
    let variantNumber : Nat := match s.ckVar with | .crc16 => 0 | .add8 => 1
    reads .cmd 0 ∧
    reads .status (stateNumber + 4 * phaseNumber + 64 * s.errCode.toNat + 1024 * variantNumber) ∧
    reads .cfg s.cfg.toNat ∧ reads .period s.period.toNat ∧ reads .count s.count.toNat ∧
    reads .duration s.duration.toNat ∧ reads .trajLen s.trajLen.toNat ∧ reads .iter s.iter.toNat ∧
    reads .tsLen s.tsLen.toNat ∧ reads .errInfo s.errInfo.toNat ∧ reads .tStart s.tStart.toNat ∧
    reads .tPre s.tPre.toNat ∧ reads .tPost s.tPost.toNat ∧ reads .deadline s.deadline.toNat ∧
    reads .hdr0 s.hdr0.toNat ∧ reads .hdr1 s.hdr1.toNat ∧ reads .hdr2 s.hdr2.toNat ∧
    reads .hdr3 s.hdr3.toNat ∧ reads .valA s.valA.toNat ∧ reads .valB s.valB.toNat ∧
    reads .decA s.decA.toNat ∧ reads .decB s.decB.toNat ∧ reads .acc s.acc.toNat ∧
    reads .cksum (if s.ckVar = .crc16 then (s.acc ^^^ Config.crcXorOut).toNat else s.acc.toNat) ∧
    (∀ i, reads (.txbuf i) (s.txbuf.get i).toNat) ∧ (∀ i, reads (.rxbuf i) (s.rxbuf.get i).toNat)

/-- A plain store, where R178 allows it: OK; the register then reads the low `W` bits of the data (of CFG
the two fields), every other register reads as before, and neither memory nor anything else changes
(43_host_access.md, WR.REG; 20_memory.md section 3). -/
def Obligations.RegisterWriteStoresLowBits : Prop :=
  ∀ (r : Reg) (wdata : DWord) (s : State), r ≠ .cmd → hostAllowed (.wrReg r wdata) s →
    ∃ t, exec (.wrReg r wdata) s = .next t ∧ t.answer = some { status := .ok, rdata := 0 } ∧
      (readReg Config.params r t).toNat =
        (if r = .cfg then wdata.toNat % 4 else wdata.toNat % 2 ^ regWidth r) ∧
      (∀ r', r' ≠ r → readReg Config.params r' t = readReg Config.params r' s) ∧
      t.runState = s.runState ∧ t.phase = s.phase ∧ t.errCode = s.errCode ∧ t.ckVar = s.ckVar ∧
      t.traj = s.traj ∧ t.ts = s.ts ∧ t.pending = s.pending ∧ t.clkLast = s.clkLast ∧
      t.inputs = s.inputs ∧ t.clockScript = s.clockScript ∧ t.draws = s.draws ∧
      t.xferCount = s.xferCount ∧ t.events = s.events

/-- R174: RD.TRAJ below TRAJ_CAP answers the entry zero-extended, in every scheduler state and whatever
TRAJ_LEN is; at or above it answers ERR. Nothing else changes. -/
def Obligations.TrajectoryReadAnswersEntry : Prop :=
  ∀ (idx : Word) (s : State),
    (idx.toNat < Config.trajCap → exec (.rdTraj idx) s =
      .next { s with answer := some { status := .ok, rdata := (s.traj.read idx.toNat).setWidth 64 } }) ∧
    (Config.trajCap ≤ idx.toNat → exec (.rdTraj idx) s =
      .next { s with answer := some { status := .err, rdata := 0 } })

/-- WR.TRAJ in Idle below TRAJ_CAP puts `wdata[31:0]`, any bit pattern, into that entry; every other
entry reads as before and nothing else changes. Elsewhere it answers ERR and changes nothing. The premise
and the clause `m.wf` are the memory's canonical form, which is the model's (log 5) and which every step keeps
(43_host_access.md, WR.TRAJ). -/
def Obligations.TrajectoryWriteStoresOneEntry : Prop :=
  ∀ (idx : Word) (wdata : DWord) (s : State), s.traj.wf = true →
    (idx.toNat < Config.trajCap → s.runState = .idle →
      ∃ m, exec (.wrTraj idx wdata) s =
          .next { s with traj := m, answer := some { status := .ok, rdata := 0 } } ∧
        m.wf = true ∧
        ∀ a, (m.read a).toNat = if a = idx.toNat then wdata.toNat % 2 ^ 32 else (s.traj.read a).toNat) ∧
    (Config.trajCap ≤ idx.toNat ∨ s.runState ≠ .idle →
      exec (.wrTraj idx wdata) s = .next { s with answer := some { status := .err, rdata := 0 } })

/-- R177: RD.TS while not Running and below TS_LEN answers the entry; otherwise it answers ERR, so every
RD.TS does right after reset; a write to TS (sel = 101) is illegal in every state. Nothing else changes. -/
def Obligations.SeriesReadAnswersEntry : Prop :=
  (∀ (idx : Word) (s : State),
    (s.runState ≠ .running → idx.toNat < s.tsLen.toNat → exec (.rdTs idx) s =
      .next { s with answer := some { status := .ok, rdata := s.ts.read idx.toNat } }) ∧
    (s.runState = .running ∨ s.tsLen.toNat ≤ idx.toNat → exec (.rdTs idx) s =
      .next { s with answer := some { status := .err, rdata := 0 } })) ∧
  (∀ idx, exec (.rdTs idx) State.reset =
    .next { State.reset with answer := some { status := .err, rdata := 0 } }) ∧
  (∀ w, (busSel w).toNat = 5 → decode (.bus w) = .rejected .illegalSelector)

/-- While a run proceeds no host transaction changes anything of the block, and only RD.REG and RD.TRAJ are
answered OK (70_reset_and_hazards.md section 3; 43_host_access.md, state locks). -/
def Obligations.HostCannotDisturbARun : Prop :=
  ∀ (i : Instr) (s t : State), isHost i = true → s.runState = .running → exec i s = .next t →
    t = { s with answer := t.answer } ∧
    ((∃ d, t.answer = some { status := .ok, rdata := d }) →
      (∃ r, i = .rdReg r) ∨ (∃ idx, i = .rdTraj idx))

/-! ### Memory -/

/-- R72: an entry reads what the latest write put there and a write changes no other entry; both keep the
canonical form, in which two memories that read alike everywhere are equal (log 5). -/
def Obligations.MemoryReadsTheLatestWrite : Prop :=
  ∀ (w : Nat) (m m' : Mem w), m.wf = true → m'.wf = true →
    (∀ a v b, (m.write a v).read b = if b = a then v else m.read b) ∧
    (∀ a v, (m.write a v).wf = true) ∧
    ((∀ a, m.read a = m'.read a) → m = m')

/-! ### The checksum engine -/

/-- R131, R132: the shift step, in numbers; and absorbing a byte: it is xored into bits 15:8, bits 7:0 stay,
then eight shift steps. -/
def Obligations.CrcByteIsEightShiftSteps : Prop :=
  ∀ (p : CrcParams) (a : Half),
    (2 ^ 15 ≤ a.toNat → (crcBit p a).toNat = (2 * a.toNat % 2 ^ 16) ^^^ p.poly.toNat) ∧
    (a.toNat < 2 ^ 15 → (crcBit p a).toNat = 2 * a.toNat % 2 ^ 16) ∧
    (∀ b : Byte, crcByte p a b = (crcBit p)^[8] ((a.extractLsb' 8 8 ^^^ b) ++ a.extractLsb' 0 8))

/-- CKINIT while not Running: CK_VAR and the strategy's seed, everything else unchanged; while Running, ERR
and nothing changed (40_checksum.md section 4, CKINIT). -/
def Obligations.CkinitStartsAStream : Prop :=
  ∀ (var : Variant) (s : State),
    (s.runState ≠ .running → exec (.ckinit var) s = .next { s with
      ckVar := var
      acc := (match var with | .crc16 => Config.crcSeed | .add8 => 0)
      answer := some { status := .ok, rdata := 0 } }) ∧
    (s.runState = .running →
      exec (.ckinit var) s = .next { s with answer := some { status := .err, rdata := 0 } })

/-- CKBYTE while not Running: the byte absorbed by the strategy in CK_VAR, ADD8 as a sum mod 256 with a zero
high byte; everything else unchanged; while Running, ERR and nothing changed (40_checksum.md section 4,
CKBYTE, and section 3). -/
def Obligations.CkbyteAbsorbsOneByte : Prop :=
  ∀ (b : Byte) (s : State),
    (s.runState ≠ .running → ∃ c : Half,
      exec (.ckbyte b) s = .next { s with acc := c, answer := some { status := .ok, rdata := 0 } } ∧
      (s.ckVar = .crc16 → c = crcByte Config.params.crc s.acc b) ∧
      (s.ckVar = .add8 → c.toNat = (s.acc.toNat + b.toNat) % 256)) ∧
    (s.runState = .running →
      exec (.ckbyte b) s = .next { s with answer := some { status := .err, rdata := 0 } })

/-- CKBUF of `n <= 14` bytes while not Running ends in the state that CKINIT and then one CKBYTE for each of
the first `n` bytes of the buffer end in, and changes CK_VAR, ACC and the answer alone; with `n = 15`, or
while Running, ERR and nothing changed (40_checksum.md section 4, CKBUF). -/
def Obligations.CkbufEqualsStreaming : Prop :=
  ∀ (var : Variant) (buf : BufSel) (n : BitVec 4) (s : State),
    (s.runState ≠ .running → n.toNat ≤ 14 →
      ∃ c, exec (.ckbuf var buf n) s =
          .next { s with ckVar := var, acc := c, answer := some { status := .ok, rdata := 0 } } ∧
        execAll (.ckinit var ::
            (((match buf with | .tx => s.txbuf | .rx => s.rxbuf).toList.take n.toNat).map .ckbyte)) s =
          exec (.ckbuf var buf n) s) ∧
    (s.runState = .running ∨ 14 < n.toNat →
      exec (.ckbuf var buf n) s = .next { s with answer := some { status := .err, rdata := 0 } })

/-- With a zero seed, zero bytes keep the accumulator 0 and the one byte 0x01 leaves the polynomial
(40_checksum.md section 5, laws a and b). -/
def Obligations.CrcOfZerosAndOfOne : Prop :=
  ∀ (p : CrcParams), p.seed = 0 →
    (∀ k, crcAcc p (List.replicate k 0) = 0) ∧ crcAcc p [0x01] = p.poly

/-- A message followed by the two bytes of its accumulator leaves 0; followed by its crc16 it leaves the
seed-0 accumulator of the two bytes of the output mask; so a frame with a zero mask leaves 0 over all 14
bytes (40_checksum.md section 5, law c). -/
def Obligations.CrcResidue : Prop :=
  ∀ (p : CrcParams) (m : List Byte),
    crcAcc p (m ++ checksumBytes (crcAcc p m)) = 0 ∧
    crcAcc p (m ++ checksumBytes (crc16 p m)) = crcFrom p 0 (checksumBytes p.xorOut) ∧
    (p.xorOut = 0 → ∀ h0 h1 h2 h3 a b, crcAcc p (frame p h0 h1 h2 h3 a b).toList = 0)

/-- For an odd polynomial `crc_byte` is injective in the accumulator and in the byte, so messages of equal
length that differ in exactly one byte have different accumulators (40_checksum.md section 5, law d). -/
def Obligations.OddPolynomialDetectsOneByte : Prop :=
  ∀ (p : CrcParams), p.poly.getLsbD 0 = true →
    (∀ b, Function.Bijective fun a => crcByte p a b) ∧
    (∀ a, Function.Injective (crcByte p a)) ∧
    (∀ (pre post : List Byte) (b c : Byte), b ≠ c →
      crcAcc p (pre ++ b :: post) ≠ crcAcc p (pre ++ c :: post))

/-- The accumulator is affine over xor: for messages of equal length (40_checksum.md section 5, law e). -/
def Obligations.CrcIsAffine : Prop :=
  ∀ (p : CrcParams) (m m' : List Byte), m.length = m'.length →
    crcFrom p 0 (List.zipWith (· ^^^ ·) m m') = crcAcc p m ^^^ crcAcc p m'

/-- ADD8 is the sum of the bytes mod 256; it adds over concatenation and does not depend on the order of the
bytes (40_checksum.md sections 3 and 5, law f). -/
def Obligations.Add8SumsModulo256 : Prop :=
  ∀ m m' : List Byte,
    (add8 m).toNat = (m.map BitVec.toNat).sum % 256 ∧
    (add8 (m ++ m')).toNat = ((add8 m).toNat + (add8 m').toNat) % 256 ∧
    (m.Perm m' → add8 m = add8 m')

/-! ### The frame codec -/

/-- R150, R103, R74, R73: the 14 bytes of a frame, in numbers: the header, each value most significant byte
first, and the crc16 of the first 12 bytes, high byte first. -/
def Obligations.FrameLayout : Prop :=
  ∀ (p : CrcParams) (h0 h1 h2 h3 : Byte) (a b : Word),
    let f := frame p h0 h1 h2 h3 a b
    let c := (crc16 p (f.toList.take 12)).toNat
    f.toList.map BitVec.toNat =
      [h0.toNat, h1.toNat, h2.toNat, h3.toNat,
        a.toNat / 2 ^ 24, a.toNat / 2 ^ 16 % 256, a.toNat / 2 ^ 8 % 256, a.toNat % 256,
        b.toNat / 2 ^ 24, b.toNat / 2 ^ 16 % 256, b.toNat / 2 ^ 8 % 256, b.toNat % 256,
        c / 256, c % 256]

/-- ENC while not Running: TXBUF is the frame of the Command registers, CK_VAR is CRC16, ACC the accumulator
of the body before the mask; everything else unchanged. While Running, ERR and nothing changed
(41_framecodec.md section 2, ENC). -/
def Obligations.EncWritesTheFrame : Prop :=
  ∀ s : State,
    (s.runState ≠ .running → ∃ f,
      f = frame Config.params.crc s.hdr0 s.hdr1 s.hdr2 s.hdr3 s.valA s.valB ∧
      exec .enc s = .next { s with
        txbuf := f
        ckVar := .crc16
        acc := crcAcc Config.params.crc (f.toList.take 12)
        answer := some { status := .ok, rdata := 0 } }) ∧
    (s.runState = .running →
      exec .enc s = .next { s with answer := some { status := .err, rdata := 0 } })

/-- DEC while not Running: DECA and DECB are the big-endian numbers of RXBUF[4..7] and RXBUF[8..11],
whatever the header and the checksum are; everything else unchanged. While Running, ERR and nothing changed
(41_framecodec.md section 2, DEC). -/
def Obligations.DecReadsTheValues : Prop :=
  ∀ s : State,
    (s.runState ≠ .running → ∃ a b : Word,
      exec .dec s = .next { s with decA := a, decB := b, answer := some { status := .ok, rdata := 0 } } ∧
      a.toNat = (((s.rxbuf.get 4).toNat * 256 + (s.rxbuf.get 5).toNat) * 256
        + (s.rxbuf.get 6).toNat) * 256 + (s.rxbuf.get 7).toNat ∧
      b.toNat = (((s.rxbuf.get 8).toNat * 256 + (s.rxbuf.get 9).toNat) * 256
        + (s.rxbuf.get 10).toNat) * 256 + (s.rxbuf.get 11).toNat) ∧
    (s.runState = .running →
      exec .dec s = .next { s with answer := some { status := .err, rdata := 0 } })

/-- The values of a frame are the values it was made of, bit for bit; and ENC, a copy of TXBUF into
RXBUF, and DEC leave DECA = VALA and DECB = VALB (41_framecodec.md section 3, the spec's own inference). -/
def Obligations.CodecRoundTrip : Prop :=
  (∀ p h0 h1 h2 h3 a b, values (frame p h0 h1 h2 h3 a b) = (a, b)) ∧
  (∀ s : State, s.runState ≠ .running → ∃ t u, exec .enc s = .next t ∧
    exec .dec { t with rxbuf := t.txbuf } = .next u ∧ u.decA = s.valA ∧ u.decB = s.valB)

/-- Host-side validation of a received frame: with a frame in RXBUF and STATE not Running, each of the four
lines of VERIFYRX is answered OK, RD CKSUM with `256 * RXBUF[12] + RXBUF[13]` and the two buffer reads with
RXBUF[12] and RXBUF[13], which are unchanged; with a zero mask CKBUF over all 14 bytes is answered OK and leaves
ACC = 0 (41_framecodec.md section 2, host-side validation). -/
def Obligations.HostValidationOfAFrame : Prop :=
  ∀ (s : State) (h0 h1 h2 h3 : Byte) (a b : Word), s.runState ≠ .running →
    s.rxbuf = frame Config.params.crc h0 h1 h2 h3 a b →
    let high := (s.rxbuf.get 12).toNat
    let low := (s.rxbuf.get 13).toNat
    let answersOk (i : Instr) (x y : State) (v : Nat) : Prop :=
      exec i x = .next y ∧ ∃ d : DWord, d.toNat = v ∧ y.answer = some { status := .ok, rdata := d }
    (∃ t1 t2 t3 t4, answersOk (.ckbuf .crc16 .rx 12) s t1 0 ∧
      answersOk (.rdReg .cksum) t1 t2 (256 * high + low) ∧
      answersOk (.rdReg (.rxbuf 12)) t2 t3 high ∧
      answersOk (.rdReg (.rxbuf 13)) t3 t4 low ∧
      execAll asmVerifyrx s = .next t4 ∧ t4.acc = t1.acc ∧ t4.rxbuf = s.rxbuf) ∧
    (Config.crcXorOut = 0 → ∃ t, answersOk (.ckbuf .crc16 .rx 14) s t 0 ∧ t.acc = 0)

/-! ### START -/

/-- R194: `cfg_valid`, in unbounded integers. -/
def Obligations.ConfigurationValidity : Prop :=
  ∀ s : State,
    let k := 1 + s.cfg.toNat / 2 % 2
    let P := s.period.toNat
    let L := s.trajLen.toNat
    cfgValid Config.params s = true ↔
      P ≠ 0 ∧ L ≤ Config.trajCap ∧
      (s.cfg.toNat % 2 = 0 → s.count.toNat ≤ L ∧ k * s.count.toNat ≤ Config.tsCap) ∧
      (s.cfg.toNat % 2 = 1 → s.duration.toNat ≤ L * P ∧ s.duration.toNat ≤ Config.tsCap / k * P)

/-- R196: START in Idle, without an earlier error, with a valid configuration: the five writes and the one
clock read, everything else unchanged, and the answer OK. -/
def Obligations.StartBeginsTheRun : Prop :=
  ∀ s : State, s.runState = .idle → s.errCode = 0 → cfgValid Config.params s = true →
    ∃ n t, exec .start s = .next t ∧ n = nowValue s ∧ s.clkLast ≤ n ∧
      t = { s with
        tStart := n
        iter := 0
        tsLen := 0
        runState := .running
        phase := .check
        answer := some { status := .ok, rdata := 0 }
        clkLast := n
        clockScript := t.clockScript
        draws := t.draws }

/-- R195, R237: START with an invalid configuration answers OK, writes ERRCODE = 1 and ERRINFO = 0 and
nothing else; the run never starts, and START then answers ERR. -/
def Obligations.StartWithInvalidConfiguration : Prop :=
  ∀ s : State, s.runState = .idle → s.errCode = 0 → cfgValid Config.params s = false →
    ∃ t, exec .start s = .next t ∧
      t = { s with errCode := 1, errInfo := 0, answer := some { status := .ok, rdata := 0 } } ∧
      exec .start t = .next { t with answer := some { status := .err, rdata := 0 } }

/-- START out of Idle, or after an error, answers ERR and changes nothing, whatever the configuration is
(42_scheduler.md section 2, acceptance). -/
def Obligations.StartRefused : Prop :=
  ∀ s : State, s.runState ≠ .idle ∨ s.errCode ≠ 0 →
    exec .start s = .next { s with answer := some { status := .err, rdata := 0 } }

/-! ### The phases -/

/-- R197; 42_scheduler.md, PH.DONE: in phase IDLE and in phase DONE the sequencer does nothing; only START
leaves IDLE, and without a reset nothing leaves DONE (that no step is a next state equal to the state is the
model's, log 9). -/
def Obligations.IdleAndDoneHaveNoStep : Prop :=
  (∀ s, exec .phIdle s = .next s) ∧ (∀ s, exec .phDone s = .next s) ∧
  (∀ s t, s.runState = phaseRunState s.phase → step s = .next t → (∀ rest, s.inputs ≠ .reset :: rest) →
    (s.phase = .idle → t.phase = .idle ∨ (t.phase = .check ∧
      ∃ w rest i, s.inputs = .host w :: rest ∧ decode (.bus w) = .ok i ∧ carries i .start = true)) ∧
    (s.phase = .done → t.phase = .done))

/-- R198, R199, R200: CHECK ends a run by count at ITER = COUNT; otherwise DEADLINE becomes the exact product
ITER * PERIOD and PHASE becomes WAIT. Everything else unchanged. -/
def Obligations.CheckSetsTheDeadlineOrEnds : Prop :=
  ∀ s : State,
    (s.cfg.getLsbD 0 = false → s.iter = s.count →
      exec .phCheck s = .next { s with runState := .finished, phase := .done }) ∧
    (s.cfg.getLsbD 0 = true ∨ s.iter ≠ s.count → ∃ d : DWord,
      exec .phCheck s = .next { s with deadline := d, phase := .wait } ∧
      d.toNat = s.iter.toNat * s.period.toNat)

/-- R201: one poll. With `e = (n - T_START) mod 2^64`: a run by duration ends at `e >= DURATION`, which is
tested first; `e >= DEADLINE` goes to PRE; otherwise WAIT again. The poll itself is not stored but in
`clk_last`; everything else unchanged. -/
def Obligations.WaitPollsTheClock : Prop :=
  ∀ s : State, ∃ n t, n = nowValue s ∧ exec .phWait s = .next t ∧
    (let e := (2 ^ 64 - s.tStart.toNat + n.toNat) % 2 ^ 64
     let ends := s.cfg.getLsbD 0 = true ∧ s.duration.toNat ≤ e
     (ends → t.phase = .done ∧ t.runState = .finished) ∧
     (¬ ends → s.deadline.toNat ≤ e → t.phase = .pre ∧ t.runState = s.runState) ∧
     (¬ ends → e < s.deadline.toNat → t.phase = .wait ∧ t.runState = s.runState)) ∧
    t = { s with
      phase := t.phase
      runState := t.runState
      clkLast := n
      clockScript := t.clockScript
      draws := t.draws }

/-- R204: PRE strobes T_PRE with a fresh clock read and goes to ENC, everything else unchanged; after the
poll that left WAIT, T_PRE is at least that poll's value, so T_PRE - T_START >= DEADLINE. -/
def Obligations.PreStrobesAfterTheDeadline : Prop :=
  (∀ s : State, ∃ t, exec .phPre s = .next t ∧ s.clkLast ≤ t.tPre ∧
    t = { s with
      tPre := nowValue s
      phase := .enc
      clkLast := nowValue s
      clockScript := t.clockScript
      draws := t.draws }) ∧
  (∀ s t u : State, s.tStart ≤ s.clkLast → exec .phWait s = .next t → t.phase = .pre →
    exec .phPre t = .next u →
    nowValue s ≤ u.tPre ∧ u.deadline.toNat ≤ u.tPre.toNat - u.tStart.toNat)

/-- R205, R206: ENC, with ITER inside TRAJ, writes the sample of iteration ITER into VALA, VALB or both as
AXIS_MAP says, unscaled, encodes, and goes to XREQ; everything else unchanged. -/
def Obligations.EncPhaseEncodesTheSample : Prop :=
  ∀ s : State, s.iter.toNat < Config.trajCap → ∃ a b f,
    a = (if Config.axisMap = .b then s.valA else s.traj.read s.iter.toNat) ∧
    b = (if Config.axisMap = .a then s.valB else s.traj.read s.iter.toNat) ∧
    f = frame Config.params.crc s.hdr0 s.hdr1 s.hdr2 s.hdr3 a b ∧
    exec .phEnc s = .next { s with
      valA := a
      valB := b
      txbuf := f
      ckVar := .crc16
      acc := crcAcc Config.params.crc (f.toList.take 12)
      phase := .xreq }

/-- XREQ hands the 14 bytes of TXBUF to the transport, a transfer is pending, the event XferReq is
recorded, and the next phase is XWAIT; everything else unchanged (42_scheduler.md section 3, PH.XREQ). The
clauses on `serial` and `xferCount`, the number of the request, are the model's (log 8). -/
def Obligations.XreqHandsOverTheFrame : Prop :=
  ∀ s : State, exec .phXreq s = .next { s with
    pending := some { serial := s.xferCount, out := s.txbuf, answer := none }
    xferCount := s.xferCount + 1
    events := s.events ++ [.xferReq s.iter s.txbuf]
    phase := .xwait }

/-- R209, R87, first half: an answer of status XFER_OK and count 14 is a success: RXBUF takes its bytes, the
event XferAns is recorded, the next phase is DEC; everything else unchanged. -/
def Obligations.XwaitTakesASuccessfulAnswer : Prop :=
  ∀ (s : State) (x : Transfer) (data : Frame), s.pending = some x →
    x.answer = some { status := .ok, count := 14, data := data } →
    exec .phXwait s = .next { s with
      pending := none
      rxbuf := data
      events := s.events ++ [.xferAns s.iter { status := .ok, count := 14, data := data }]
      phase := .dec }

/-- R211, R236: every other answer aborts: ERRCODE = 3, ERRINFO = ITER, STATE = Finished, PHASE = DONE,
RXBUF holding some fourteen bytes; nothing is saved and everything else is unchanged, ITER, TS_LEN, TS,
DECA, DECB and T_POST among it. -/
def Obligations.XwaitAbortsOnAFailedAnswer : Prop :=
  ∀ (s : State) (x : Transfer) (a : XferAnswer), s.pending = some x → x.answer = some a →
    (a.status = .err ∨ a.count.toNat ≠ 14) →
    ∃ r n, exec .phXwait s = .next { s with
      errCode := 3
      errInfo := s.iter
      runState := .finished
      phase := .done
      rxbuf := r
      pending := none
      events := s.events ++ [.xferAns s.iter a]
      draws := n }

/-- R210: while the transport has not answered nothing of the block changes: XWAIT does nothing, and no step
but an answer of the transport or a reset leaves the hold (that a hold is a next state equal to the state is
the model's, log 9). -/
def Obligations.HoldIsLiftedOnlyByAnAnswer : Prop :=
  ∀ (s : State) (x : Transfer), s.phase = .xwait → s.runState = .running → s.pending = some x →
    x.answer = none →
    exec .phXwait s = .next s ∧
    (∀ t, step s = .next t → (∀ rest, s.inputs ≠ .reset :: rest) →
      (∀ a rest, s.inputs ≠ .transport x.serial a :: rest) →
      t = { s with inputs := s.inputs.tail, answer := t.answer })

/-- An answer to a request that is not the pending one, or was answered, is discarded: nothing changes; an
answer to the pending request waits for XWAIT, RXBUF unchanged until then. The spec gives the discarding of a
late answer (70_reset_and_hazards.md section 1, reset during a run); that a second answer to the pending request
is discarded too, and the numbering of requests, are the model's (log 8). -/
def Obligations.LateAnswersAreDiscarded : Prop :=
  ∀ (s : State) (n : Nat) (a : XferAnswer) (rest : List Input), s.inputs = .transport n a :: rest →
    ((∀ x, s.pending = some x → x.serial ≠ n ∨ x.answer ≠ none) → step s = .next { s with inputs := rest }) ∧
    (∀ x, s.pending = some x → x.serial = n → x.answer = none →
      step s = .next { s with inputs := rest, pending := some { x with answer := some a } })

/-- R212: DEC writes the two values of RXBUF to DECA and DECB and goes to POST, whatever the header and the
checksum of the response are; everything else unchanged. -/
def Obligations.DecPhaseDecodesTheResponse : Prop :=
  ∀ s : State, exec .phDec s =
    .next { s with decA := (values s.rxbuf).1, decB := (values s.rxbuf).2, phase := .post }

/-- R213: POST strobes T_POST with a fresh clock read and goes to APPEND, everything else unchanged; T_POST is
at least T_PRE wherever T_PRE came from the clock. -/
def Obligations.PostStrobes : Prop :=
  ∀ s : State, ∃ t, exec .phPost s = .next t ∧ s.clkLast ≤ t.tPost ∧
    (s.tPre ≤ s.clkLast → t.tPre ≤ t.tPost) ∧
    t = { s with
      tPost := nowValue s
      phase := .append
      clkLast := nowValue s
      clockScript := t.clockScript
      draws := t.draws }

/-- APPEND, with its indices inside TS, writes T_PRE at TS_LEN and, with two stamps, T_POST after it;
every other entry of TS reads as before; TS_LEN and ITER are advanced, the Row is recorded, the next phase is
CHECK; everything else unchanged (42_scheduler.md section 3, PH.APPEND). The premise `s.ts.wf` and the clause
`m.wf` are the memory's canonical form, which is the model's (log 5). -/
def Obligations.AppendStampsAndCounts : Prop :=
  ∀ s : State, s.ts.wf = true → s.tsLen.toNat + (1 + s.cfg.toNat / 2 % 2) ≤ Config.tsCap →
    ∃ m l, exec .phAppend s = .next { s with
        ts := m
        tsLen := l
        iter := s.iter + 1
        events := s.events ++ [.row s.iter s.tPre s.tPost s.valA s.valB s.decA s.decB]
        phase := .check } ∧
      l.toNat = s.tsLen.toNat + (1 + s.cfg.toNat / 2 % 2) ∧
      m.wf = true ∧
      m.read s.tsLen.toNat = s.tPre ∧
      (s.cfg.toNat / 2 % 2 = 1 → m.read (s.tsLen.toNat + 1) = s.tPost) ∧
      (∀ a, a < s.tsLen.toNat ∨ l.toNat ≤ a → m.read a = s.ts.read a)

/-- A sequencer step that indexes outside TRAJ or TS stops with the model's fault of that name, and these
are the only faults of `exec`; nothing is refused (20_memory.md section 1: the primitives have no meaning
there; log 14). -/
def Obligations.FaultsAreIndexFaults : Prop :=
  (∀ s : State, Config.trajCap ≤ s.iter.toNat → exec .phEnc s = .fault .trajIndexOutOfRange) ∧
  (∀ s : State, Config.tsCap < s.tsLen.toNat + (1 + s.cfg.toNat / 2 % 2) →
    exec .phAppend s = .fault .tsIndexOutOfRange) ∧
  (∀ i s r, exec i s = .fault r → i = .phEnc ∨ i = .phAppend) ∧
  (∀ i s r, exec i s ≠ .refused r)

/-! ### Rules about the whole machine -/

/-- The phase graph: a phase's step writes one of the next phases listed for it (42_scheduler.md section 1). The
self-loops of IDLE and DONE, for which the graph lists no next phase, and of XWAIT in its hold are the model's:
having no step is a next state equal to the state (log 9). -/
def Obligations.PhaseGraph : Prop :=
  ∀ s t : State, exec s.phase.toInstr s = .next t → t.phase ∈ nextPhases s.phase

/-- R191, R27, R219: without a reset STATE keeps its value or takes one of the two edges, Idle to Running by an
accepted START with a valid configuration, Running to Finished by the sequencer. The premise is R48 (a). -/
def Obligations.StateMachineHasTwoEdges : Prop :=
  ∀ s t : State, s.runState = phaseRunState s.phase → step s = .next t →
    (∀ rest, s.inputs ≠ .reset :: rest) →
    t.runState = s.runState ∨
    (s.runState = .idle ∧ t.runState = .running ∧ cfgValid Config.params s = true ∧
      ∃ w rest i, s.inputs = .host w :: rest ∧ decode (.bus w) = .ok i ∧ carries i .start = true) ∨
    (s.runState = .running ∧ t.runState = .finished ∧
      (s.phase = .check ∨ s.phase = .wait ∨ s.phase = .xwait) ∧
      (s.inputs = [] ∨ ∃ rest, s.inputs = .seq :: rest))

/-- R48 (a) to (d) and what they rest on hold right after reset, and so does the clock's law over an empty
series. -/
def Obligations.ResetMeetsTheInvariants : Prop :=
  Inv State.reset ∧ TimeInv State.reset

/-- Every step, of whichever agent, keeps the invariant: STATE and PHASE agree, TS_LEN = (1 + STAMPMODE) *
ITER <= TS_CAP, ITER <= TRAJ_LEN <= TRAJ_CAP out of Idle and ITER < TRAJ_LEN inside an iteration, ERRCODE is
0, 1 or 3, a transfer is pending exactly in XWAIT with TXBUF as its data, the reserved bits of CFG read 0
(10_state.md section 6 and the rules of these registers). The model's own clauses, which no rule of the spec
states: the memories keep their canonical form (log 5), and the number of a pending request is below the count of
requests (log 8). -/
def Obligations.StepKeepsTheInvariant : Prop :=
  ∀ s t : State, Inv s → step s = .next t → Inv t

/-- In a state that meets the invariant the machine always has a next state: no index leaves its memory and
nothing is refused (42_scheduler.md section 4, every index of a run is in range). Where the spec gives no step, in
IDLE, in DONE and in the hold of XWAIT, the next state is the state itself, which is the model's choice
(log 9). -/
def Obligations.InvariantStatesNeverStop : Prop :=
  ∀ s : State, Inv s → SafeStep s

/-- Every step keeps the clock's law over the stamps: the readable entries of TS are non-decreasing, and the
`t_pre` of every completed iteration `i` is at least `i * PERIOD` after T_START (10_state.md section 6, e and
f). -/
def Obligations.StepKeepsTheClockLaw : Prop :=
  ∀ s t : State, Inv s → TimeInv s → step s = .next t → TimeInv t

/-- R48 (g): out of Idle no instruction changes the configuration registers or TRAJ. -/
def Obligations.ConfigurationIsFrozen : Prop :=
  ∀ (i : Instr) (s t : State), s.runState ≠ .idle → exec i s = .next t → ConfigFrozen s t

/-- The step that ends a run without an abort, from a state that meets the invariant, ends it with a bounded
number of completed iterations: by count exactly COUNT; by duration at most DURATION / PERIOD rounded up
(42_scheduler.md section 4, number of iterations, upper bound). -/
def Obligations.IterationsAreBounded : Prop :=
  ∀ s t : State, Inv s → step s = .next t → s.runState = .running → t.runState = .finished →
    t.errCode = 0 →
    (t.cfg.toNat % 2 = 0 → t.iter = t.count) ∧
    (t.cfg.toNat % 2 = 1 →
      t.iter.toNat ≤ (t.duration.toNat + t.period.toNat - 1) / t.period.toNat)

/-- Errors are terminal: from a state that meets the invariant, once ERRCODE is not 0 no step but a reset
changes ERRCODE or ERRINFO, and no step leaves the scheduler state it is in (60_exceptions.md section 3, no
return, no nesting). -/
def Obligations.ErrorsAreTerminal : Prop :=
  ∀ s t : State, Inv s → s.errCode ≠ 0 → step s = .next t → (∀ rest, s.inputs ≠ .reset :: rest) →
    t.errCode = s.errCode ∧ t.errInfo = s.errInfo ∧ t.runState = s.runState

/-- The series is append-only during the loop and immutable afterward: no step changes an entry below
TS_LEN or lowers TS_LEN but by reset, and in Finished none changes TS at all (10_state.md section 4, TS). -/
def Obligations.SeriesIsAppendOnly : Prop :=
  ∀ s t : State, Inv s → step s = .next t → (∀ rest, s.inputs ≠ .reset :: rest) →
    s.tsLen.toNat ≤ t.tsLen.toNat ∧
    (∀ a < s.tsLen.toNat, t.ts.read a = s.ts.read a) ∧
    (s.runState = .finished → t.ts = s.ts ∧ t.tsLen = s.tsLen)

/-- The clock never goes back at any step, and only START, WAIT, PRE and POST read it
(20_memory.md section 5). -/
def Obligations.ClockLaw : Prop :=
  (∀ s t : State, step s = .next t → s.clkLast ≤ t.clkLast) ∧
  (∀ (i : Instr) (s t : State), exec i s = .next t →
    t.clkLast = s.clkLast ∧ t.clockScript = s.clockScript ∨
    (carries i .start = true ∨ i = .phWait ∨ i = .phPre ∨ i = .phPost) ∧
      t.clkLast = nowValue s ∧ t.clockScript = s.clockScript.tail)

/-- Who writes what: each register, both memories and the pending transfer keep their value under every
instruction but their writers: a configuration register in every scheduler state, Idle among them, under all but
the store to it, STATE under all but START, CHECK, WAIT and XWAIT, PHASE under all but START and the nine phases
that have a step (10_state.md sections 2 to 5, "written by"). -/
def Obligations.OnlyTheNamedInstructionsWrite : Prop :=
  ∀ (i : Instr) (s t : State), exec i s = .next t →
    let stores (r : Reg) : Prop := ∃ d, i = .wrReg r d
    let cmd (c : Command) : Prop := carries i c = true
    (t.cfg = s.cfg ∨ stores .cfg) ∧ (t.period = s.period ∨ stores .period) ∧
    (t.count = s.count ∨ stores .count) ∧ (t.duration = s.duration ∨ stores .duration) ∧
    (t.trajLen = s.trajLen ∨ stores .trajLen) ∧
    (t.runState = s.runState ∨ cmd .start ∨ i = .phCheck ∨ i = .phWait ∨ i = .phXwait) ∧
    (t.phase = s.phase ∨ cmd .start ∨ i = .phCheck ∨ i = .phWait ∨ i = .phPre ∨ i = .phEnc ∨ i = .phXreq ∨
      i = .phXwait ∨ i = .phDec ∨ i = .phPost ∨ i = .phAppend) ∧
    (t.acc = s.acc ∧ t.ckVar = s.ckVar ∨ (∃ v, cmd (.ckinit v)) ∨ (∃ b, cmd (.ckbyte b)) ∨
      (∃ v b n, cmd (.ckbuf v b n)) ∨ cmd .enc ∨ i = .phEnc) ∧
    (t.hdr0 = s.hdr0 ∨ stores .hdr0) ∧ (t.hdr1 = s.hdr1 ∨ stores .hdr1) ∧
    (t.hdr2 = s.hdr2 ∨ stores .hdr2) ∧ (t.hdr3 = s.hdr3 ∨ stores .hdr3) ∧
    (t.valA = s.valA ∨ stores .valA ∨ i = .phEnc) ∧ (t.valB = s.valB ∨ stores .valB ∨ i = .phEnc) ∧
    (t.decA = s.decA ∧ t.decB = s.decB ∨ cmd .dec ∨ i = .phDec) ∧
    (t.txbuf = s.txbuf ∨ (∃ k, stores (.txbuf k)) ∨ cmd .enc ∨ i = .phEnc) ∧
    (t.rxbuf = s.rxbuf ∨ (∃ k, stores (.rxbuf k)) ∨ i = .phXwait) ∧
    (t.iter = s.iter ∧ t.tsLen = s.tsLen ∨ cmd .start ∨ i = .phAppend) ∧
    (t.errCode = s.errCode ∧ t.errInfo = s.errInfo ∨ cmd .start ∨ i = .phXwait) ∧
    (t.tStart = s.tStart ∨ cmd .start) ∧ (t.tPre = s.tPre ∨ i = .phPre) ∧
    (t.tPost = s.tPost ∨ i = .phPost) ∧ (t.deadline = s.deadline ∨ i = .phCheck) ∧
    (t.traj = s.traj ∨ ∃ idx d, i = .wrTraj idx d) ∧ (t.ts = s.ts ∨ i = .phAppend) ∧
    (t.pending = s.pending ∨ i = .phXreq ∨ i = .phXwait)

/-- The reset event, at any point: STATE, PHASE, ERRCODE, CK_VAR, the configuration registers and the
counters take the values of R47, no transfer is pending, TS keeps its entries (70_reset_and_hazards.md
section 1). That the environment's clock and the model's trace go on is the model's (log 12). -/
def Obligations.ResetEventRestoresR47 : Prop :=
  ∀ (s : State) (rest : List Input), s.inputs = .reset :: rest →
    ∃ t, step s = .next t ∧ t.inputs = rest ∧
      t.runState = .idle ∧ t.phase = .idle ∧ t.errCode = 0 ∧ t.ckVar = .crc16 ∧ t.cfg = 0 ∧
      t.period = 0 ∧ t.count = 0 ∧ t.duration = 0 ∧ t.trajLen = 0 ∧ t.iter = 0 ∧ t.tsLen = 0 ∧
      t.errInfo = 0 ∧ t.pending = none ∧ t.ts = s.ts ∧ t.clkLast = s.clkLast ∧ t.events = s.events ∧
      t.traj.wf = true
end

