-- ==== Sys2Proof/Laws/Decode.lean ====
section
/-! SUPPORT. Small facts of the decoder: PHASE always decodes to the phase's own instruction, the register
map is one to one, and a BUS word decodes to a host operation. -/

namespace Sys2Proof

theorem decodePhase_code (p : Phase) : decodePhase p.code = .ok p := by
  cases p <;> rfl

theorem decode_phase_code (p : Phase) : decode (.phase p.code) = .ok p.toInstr := by
  cases p <;> rfl

theorem Reg.ofAddr_addr (r : Reg) : Reg.ofAddr r.addr = some r := by
  cases r with
  | txbuf i => revert i; decide
  | rxbuf i => revert i; decide
  | _ => rfl

theorem Phase.toInstr_inj {p q : Phase} (h : p.toInstr = q.toInstr) : p = q := by
  revert h
  cases p <;> cases q <;> simp [Phase.toInstr]

theorem busSel_busWord (sel : BitVec 3) (addr : Word) (wdata : DWord) :
    busSel (busWord sel addr wdata) = sel := by
  apply BitVec.eq_of_getLsbD_eq
  intro i hi
  simp only [busSel, busWord, BitVec.getLsbD_extractLsb', BitVec.getLsbD_append]
  have h1 : ¬ 96 + i < 64 := by omega
  have h2 : ¬ 96 + i - 64 < 32 := by omega
  simp [h1, h2, hi, show 96 + i - 64 - 32 = i by omega]

theorem busAddr_busWord (sel : BitVec 3) (addr : Word) (wdata : DWord) :
    busAddr (busWord sel addr wdata) = addr := by
  apply BitVec.eq_of_getLsbD_eq
  intro i hi
  simp only [busAddr, busWord, BitVec.getLsbD_extractLsb', BitVec.getLsbD_append]
  simp [hi]

theorem busWdata_busWord (sel : BitVec 3) (addr : Word) (wdata : DWord) :
    busWdata (busWord sel addr wdata) = wdata := by
  apply BitVec.eq_of_getLsbD_eq
  intro i hi
  simp only [busWdata, busWord, BitVec.getLsbD_extractLsb', BitVec.getLsbD_append]
  simp [hi]

/-- A BUS word is its three fields (R105). -/
theorem busWord_fields (w : BitVec 99) : busWord (busSel w) (busAddr w) (busWdata w) = w := by
  apply BitVec.eq_of_getLsbD_eq
  intro i hi
  simp only [busSel, busAddr, busWdata, busWord, BitVec.getLsbD_extractLsb', BitVec.getLsbD_append]
  by_cases h1 : i < 64
  · simp [h1]
  · by_cases h2 : i < 96
    · simp [h1, show i - 64 < 32 by omega, show 64 + (i - 64) = i by omega]
    · simp [h1, show ¬ i - 64 < 32 by omega, show i - 64 - 32 < 3 by omega,
        show 96 + (i - 64 - 32) = i by omega]

namespace Machine

/-- A BUS word is one of the five host operations, never a command or a phase. -/
theorem decodeBus_isHost {w : BitVec 99} {i : Instr} (h : decodeBus w = .ok i) : isHost i = true := by
  unfold decodeBus at h
  split at h
  · split at h <;> cases h; rfl
  · split at h <;> cases h; rfl
  · cases h; rfl
  · cases h; rfl
  · cases h; rfl
  · cases h

theorem Command.isHost_toInstr (c : Command) : isHost c.toInstr = true := by
  cases c <;> rfl

/-- A phase carries no command. -/
theorem carries_phase (p : Phase) (c : Command) : carries p.toInstr c = false := by
  cases p <;> cases c <;> simp [carries, Phase.toInstr, Command.toInstr]

theorem Phase.isHost_toInstr (p : Phase) : isHost p.toInstr = false := by
  cases p <;> rfl

end Machine
end Sys2Proof
end

