-- ==== Sys2Proof/Laws/Memory.lean ====
section
/-! SUPPORT. The memory primitives: read after write, and every memory operation keeps the canonical form
and the capacity. -/

namespace Sys2Proof.Machine

variable {w : Nat}

theorem Mem.wfFrom_cons (low a : Nat) (v : BitVec w) (rest : Mem w) :
    Mem.wfFrom low ((a, v) :: rest) = true ↔
      low ≤ a ∧ v ≠ Mem.unlisted ∧ Mem.wfFrom (a + 1) rest = true := by
  simp [Mem.wfFrom, and_assoc]

theorem Mem.wfFrom_mono {low low' : Nat} (m : Mem w) (hl : low' ≤ low) (h : Mem.wfFrom low m = true) :
    Mem.wfFrom low' m = true := by
  cases m with
  | nil => rfl
  | cons c rest =>
    obtain ⟨a, v⟩ := c
    rw [Mem.wfFrom_cons] at h ⊢
    exact ⟨by omega, h.2⟩

/-- Nothing is listed below the bound. -/
theorem Mem.read_below {low a : Nat} (m : Mem w) (h : Mem.wfFrom low m = true) (ha : a < low) :
    m.read a = Mem.unlisted := by
  induction m generalizing low with
  | nil => rfl
  | cons c rest ih =>
    obtain ⟨b, v⟩ := c
    rw [Mem.wfFrom_cons] at h
    have hne : a ≠ b := by omega
    simp only [Mem.read, if_neg hne]
    exact ih h.2.2 (by omega)

theorem Mem.wfFrom_write {low a : Nat} (m : Mem w) (v : BitVec w) (h : Mem.wfFrom low m = true)
    (ha : low ≤ a) : Mem.wfFrom low (m.write a v) = true := by
  induction m generalizing low with
  | nil =>
    by_cases hv : v = Mem.unlisted
    · simp [Mem.write, hv, Mem.wfFrom]
    · simp [Mem.write, hv, Mem.wfFrom, ha]
  | cons c rest ih =>
    obtain ⟨b, u⟩ := c
    have h' := h
    rw [Mem.wfFrom_cons] at h
    unfold Mem.write
    split
    · split
      · exact h'
      · rw [Mem.wfFrom_cons, Mem.wfFrom_cons]
        exact ⟨ha, ‹_›, by omega, h.2⟩
    · split
      · split
        · exact Mem.wfFrom_mono rest (by omega) h.2.2
        · rw [Mem.wfFrom_cons]
          subst_vars
          exact ⟨ha, ‹_›, h.2.2⟩
      · rw [Mem.wfFrom_cons]
        exact ⟨h.1, h.2.1, ih h.2.2 (by omega)⟩

/-- A write keeps the canonical form. -/
theorem Mem.wf_write (m : Mem w) (a : Nat) (v : BitVec w) (h : m.wf = true) : (m.write a v).wf = true :=
  Mem.wfFrom_write m v h (Nat.zero_le a)

theorem Mem.read_write_from {low a : Nat} (m : Mem w) (v : BitVec w) (h : Mem.wfFrom low m = true)
    (b : Nat) : (m.write a v).read b = if b = a then v else m.read b := by
  induction m generalizing low with
  | nil =>
    by_cases hv : v = Mem.unlisted
    · subst hv; simp [Mem.write, Mem.read]
    · simp [Mem.write, hv, Mem.read]
  | cons c rest ih =>
    obtain ⟨d, u⟩ := c
    have h' := h
    rw [Mem.wfFrom_cons] at h
    unfold Mem.write
    split
    · split
      · subst_vars
        by_cases hb : b = a
        · subst hb
          have hne : b ≠ d := by omega
          simp only [Mem.read, if_neg hne]
          simpa using Mem.read_below rest h.2.2 (by omega)
        · simp [hb]
      · simp only [Mem.read]
    · split
      · rename_i _ had
        subst had
        split
        · subst_vars
          by_cases hb : b = a
          · subst hb; simpa using Mem.read_below rest h.2.2 (by omega)
          · simp [Mem.read, hb]
        · by_cases hb : b = a <;> simp [Mem.read, hb]
      · simp only [Mem.read, ih h.2.2]
        by_cases hd : b = d
        · subst hd
          have hne : b ≠ a := by omega
          simp [hne]
        · simp [hd]

/-- Read after write: the value written at its index, every other entry as before. -/
theorem Mem.read_write (m : Mem w) (a : Nat) (v : BitVec w) (h : m.wf = true) (b : Nat) :
    (m.write a v).read b = if b = a then v else m.read b :=
  Mem.read_write_from m v h b

theorem Mem.within_cons (cap a : Nat) (v : BitVec w) (rest : Mem w) :
    Mem.within cap ((a, v) :: rest) = true ↔ a < cap ∧ Mem.within cap rest = true := by
  simp [Mem.within]

/-- A write inside the capacity keeps every listed index inside it. -/
theorem Mem.within_write {cap a : Nat} (m : Mem w) (v : BitVec w) (h : m.within cap = true)
    (ha : a < cap) : (m.write a v).within cap = true := by
  induction m with
  | nil =>
    by_cases hv : v = Mem.unlisted
    · simp [Mem.write, hv, Mem.within]
    · simp [Mem.write, hv, Mem.within, ha]
  | cons c rest ih =>
    obtain ⟨b, u⟩ := c
    have h' := h
    rw [Mem.within_cons] at h
    unfold Mem.write
    split
    · split
      · exact h'
      · rw [Mem.within_cons, Mem.within_cons]
        exact ⟨ha, h⟩
    · split
      · split
        · exact h.2
        · rw [Mem.within_cons]
          exact ⟨ha, h.2⟩
      · rw [Mem.within_cons]
        exact ⟨h.1, ih h.2⟩

theorem Mem.ofWrites_fold (cap : Nat) (writes : List (Nat × BitVec w)) (m : Mem w)
    (hm : m.wf = true) (hc : m.within cap = true) :
    (writes.foldl (fun m cell => if cell.1 < cap then m.write cell.1 cell.2 else m) m).wf = true ∧
    (writes.foldl (fun m cell => if cell.1 < cap then m.write cell.1 cell.2 else m) m).within cap = true := by
  induction writes generalizing m with
  | nil => exact ⟨hm, hc⟩
  | cons c rest ih =>
    simp only [List.foldl_cons]
    split
    · exact ih _ (Mem.wf_write m _ _ hm) (Mem.within_write m _ hc ‹_›)
    · exact ih m hm hc

/-- The memory a reset event leaves is in canonical form. -/
theorem Mem.ofWrites_wf (cap : Nat) (writes : List (Nat × BitVec w)) :
    (Mem.ofWrites cap writes).wf = true :=
  (Mem.ofWrites_fold cap writes [] rfl rfl).1

/-- The memory a reset event leaves is within its capacity. -/
theorem Mem.ofWrites_within (cap : Nat) (writes : List (Nat × BitVec w)) :
    (Mem.ofWrites cap writes).within cap = true :=
  (Mem.ofWrites_fold cap writes [] rfl rfl).2

end Sys2Proof.Machine
end

