-- ==== Sys2Proof/Laws/State.lean ====
section
/-! SUPPORT. One lemma per field of State per shared update, each true by definition, so that no later
proof unfolds a record update. -/

namespace Sys2Proof.Machine

variable (s : State)

/-! ### answerOk -/

@[simp] theorem answerOk_acc (d : DWord) : (answerOk d s).acc = s.acc := rfl
@[simp] theorem answerOk_hdr0 (d : DWord) : (answerOk d s).hdr0 = s.hdr0 := rfl
@[simp] theorem answerOk_hdr1 (d : DWord) : (answerOk d s).hdr1 = s.hdr1 := rfl
@[simp] theorem answerOk_hdr2 (d : DWord) : (answerOk d s).hdr2 = s.hdr2 := rfl
@[simp] theorem answerOk_hdr3 (d : DWord) : (answerOk d s).hdr3 = s.hdr3 := rfl
@[simp] theorem answerOk_valA (d : DWord) : (answerOk d s).valA = s.valA := rfl
@[simp] theorem answerOk_valB (d : DWord) : (answerOk d s).valB = s.valB := rfl
@[simp] theorem answerOk_decA (d : DWord) : (answerOk d s).decA = s.decA := rfl
@[simp] theorem answerOk_decB (d : DWord) : (answerOk d s).decB = s.decB := rfl
@[simp] theorem answerOk_txbuf (d : DWord) : (answerOk d s).txbuf = s.txbuf := rfl
@[simp] theorem answerOk_rxbuf (d : DWord) : (answerOk d s).rxbuf = s.rxbuf := rfl
@[simp] theorem answerOk_runState (d : DWord) : (answerOk d s).runState = s.runState := rfl
@[simp] theorem answerOk_phase (d : DWord) : (answerOk d s).phase = s.phase := rfl
@[simp] theorem answerOk_iter (d : DWord) : (answerOk d s).iter = s.iter := rfl
@[simp] theorem answerOk_cfg (d : DWord) : (answerOk d s).cfg = s.cfg := rfl
@[simp] theorem answerOk_ckVar (d : DWord) : (answerOk d s).ckVar = s.ckVar := rfl
@[simp] theorem answerOk_period (d : DWord) : (answerOk d s).period = s.period := rfl
@[simp] theorem answerOk_count (d : DWord) : (answerOk d s).count = s.count := rfl
@[simp] theorem answerOk_duration (d : DWord) : (answerOk d s).duration = s.duration := rfl
@[simp] theorem answerOk_trajLen (d : DWord) : (answerOk d s).trajLen = s.trajLen := rfl
@[simp] theorem answerOk_tsLen (d : DWord) : (answerOk d s).tsLen = s.tsLen := rfl
@[simp] theorem answerOk_errCode (d : DWord) : (answerOk d s).errCode = s.errCode := rfl
@[simp] theorem answerOk_errInfo (d : DWord) : (answerOk d s).errInfo = s.errInfo := rfl
@[simp] theorem answerOk_tStart (d : DWord) : (answerOk d s).tStart = s.tStart := rfl
@[simp] theorem answerOk_tPre (d : DWord) : (answerOk d s).tPre = s.tPre := rfl
@[simp] theorem answerOk_tPost (d : DWord) : (answerOk d s).tPost = s.tPost := rfl
@[simp] theorem answerOk_deadline (d : DWord) : (answerOk d s).deadline = s.deadline := rfl
@[simp] theorem answerOk_traj (d : DWord) : (answerOk d s).traj = s.traj := rfl
@[simp] theorem answerOk_ts (d : DWord) : (answerOk d s).ts = s.ts := rfl
@[simp] theorem answerOk_pending (d : DWord) : (answerOk d s).pending = s.pending := rfl
@[simp] theorem answerOk_clkLast (d : DWord) : (answerOk d s).clkLast = s.clkLast := rfl
@[simp] theorem answerOk_inputs (d : DWord) : (answerOk d s).inputs = s.inputs := rfl
@[simp] theorem answerOk_clockScript (d : DWord) : (answerOk d s).clockScript = s.clockScript := rfl
@[simp] theorem answerOk_draws (d : DWord) : (answerOk d s).draws = s.draws := rfl
@[simp] theorem answerOk_xferCount (d : DWord) : (answerOk d s).xferCount = s.xferCount := rfl
@[simp] theorem answerOk_answer (d : DWord) :
    (answerOk d s).answer = some { status := .ok, rdata := d } := rfl
@[simp] theorem answerOk_events (d : DWord) : (answerOk d s).events = s.events := rfl

/-! ### raiseBusErr -/

@[simp] theorem raiseBusErr_acc : (raiseBusErr s).acc = s.acc := rfl
@[simp] theorem raiseBusErr_hdr0 : (raiseBusErr s).hdr0 = s.hdr0 := rfl
@[simp] theorem raiseBusErr_hdr1 : (raiseBusErr s).hdr1 = s.hdr1 := rfl
@[simp] theorem raiseBusErr_hdr2 : (raiseBusErr s).hdr2 = s.hdr2 := rfl
@[simp] theorem raiseBusErr_hdr3 : (raiseBusErr s).hdr3 = s.hdr3 := rfl
@[simp] theorem raiseBusErr_valA : (raiseBusErr s).valA = s.valA := rfl
@[simp] theorem raiseBusErr_valB : (raiseBusErr s).valB = s.valB := rfl
@[simp] theorem raiseBusErr_decA : (raiseBusErr s).decA = s.decA := rfl
@[simp] theorem raiseBusErr_decB : (raiseBusErr s).decB = s.decB := rfl
@[simp] theorem raiseBusErr_txbuf : (raiseBusErr s).txbuf = s.txbuf := rfl
@[simp] theorem raiseBusErr_rxbuf : (raiseBusErr s).rxbuf = s.rxbuf := rfl
@[simp] theorem raiseBusErr_runState : (raiseBusErr s).runState = s.runState := rfl
@[simp] theorem raiseBusErr_phase : (raiseBusErr s).phase = s.phase := rfl
@[simp] theorem raiseBusErr_iter : (raiseBusErr s).iter = s.iter := rfl
@[simp] theorem raiseBusErr_cfg : (raiseBusErr s).cfg = s.cfg := rfl
@[simp] theorem raiseBusErr_ckVar : (raiseBusErr s).ckVar = s.ckVar := rfl
@[simp] theorem raiseBusErr_period : (raiseBusErr s).period = s.period := rfl
@[simp] theorem raiseBusErr_count : (raiseBusErr s).count = s.count := rfl
@[simp] theorem raiseBusErr_duration : (raiseBusErr s).duration = s.duration := rfl
@[simp] theorem raiseBusErr_trajLen : (raiseBusErr s).trajLen = s.trajLen := rfl
@[simp] theorem raiseBusErr_tsLen : (raiseBusErr s).tsLen = s.tsLen := rfl
@[simp] theorem raiseBusErr_errCode : (raiseBusErr s).errCode = s.errCode := rfl
@[simp] theorem raiseBusErr_errInfo : (raiseBusErr s).errInfo = s.errInfo := rfl
@[simp] theorem raiseBusErr_tStart : (raiseBusErr s).tStart = s.tStart := rfl
@[simp] theorem raiseBusErr_tPre : (raiseBusErr s).tPre = s.tPre := rfl
@[simp] theorem raiseBusErr_tPost : (raiseBusErr s).tPost = s.tPost := rfl
@[simp] theorem raiseBusErr_deadline : (raiseBusErr s).deadline = s.deadline := rfl
@[simp] theorem raiseBusErr_traj : (raiseBusErr s).traj = s.traj := rfl
@[simp] theorem raiseBusErr_ts : (raiseBusErr s).ts = s.ts := rfl
@[simp] theorem raiseBusErr_pending : (raiseBusErr s).pending = s.pending := rfl
@[simp] theorem raiseBusErr_clkLast : (raiseBusErr s).clkLast = s.clkLast := rfl
@[simp] theorem raiseBusErr_inputs : (raiseBusErr s).inputs = s.inputs := rfl
@[simp] theorem raiseBusErr_clockScript : (raiseBusErr s).clockScript = s.clockScript := rfl
@[simp] theorem raiseBusErr_draws : (raiseBusErr s).draws = s.draws := rfl
@[simp] theorem raiseBusErr_xferCount : (raiseBusErr s).xferCount = s.xferCount := rfl
@[simp] theorem raiseBusErr_answer : (raiseBusErr s).answer = some { status := .err, rdata := 0 } := rfl
@[simp] theorem raiseBusErr_events : (raiseBusErr s).events = s.events := rfl

/-! ### afterNow -/

@[simp] theorem afterNow_acc : (afterNow s).acc = s.acc := rfl
@[simp] theorem afterNow_hdr0 : (afterNow s).hdr0 = s.hdr0 := rfl
@[simp] theorem afterNow_hdr1 : (afterNow s).hdr1 = s.hdr1 := rfl
@[simp] theorem afterNow_hdr2 : (afterNow s).hdr2 = s.hdr2 := rfl
@[simp] theorem afterNow_hdr3 : (afterNow s).hdr3 = s.hdr3 := rfl
@[simp] theorem afterNow_valA : (afterNow s).valA = s.valA := rfl
@[simp] theorem afterNow_valB : (afterNow s).valB = s.valB := rfl
@[simp] theorem afterNow_decA : (afterNow s).decA = s.decA := rfl
@[simp] theorem afterNow_decB : (afterNow s).decB = s.decB := rfl
@[simp] theorem afterNow_txbuf : (afterNow s).txbuf = s.txbuf := rfl
@[simp] theorem afterNow_rxbuf : (afterNow s).rxbuf = s.rxbuf := rfl
@[simp] theorem afterNow_runState : (afterNow s).runState = s.runState := rfl
@[simp] theorem afterNow_phase : (afterNow s).phase = s.phase := rfl
@[simp] theorem afterNow_iter : (afterNow s).iter = s.iter := rfl
@[simp] theorem afterNow_cfg : (afterNow s).cfg = s.cfg := rfl
@[simp] theorem afterNow_ckVar : (afterNow s).ckVar = s.ckVar := rfl
@[simp] theorem afterNow_period : (afterNow s).period = s.period := rfl
@[simp] theorem afterNow_count : (afterNow s).count = s.count := rfl
@[simp] theorem afterNow_duration : (afterNow s).duration = s.duration := rfl
@[simp] theorem afterNow_trajLen : (afterNow s).trajLen = s.trajLen := rfl
@[simp] theorem afterNow_tsLen : (afterNow s).tsLen = s.tsLen := rfl
@[simp] theorem afterNow_errCode : (afterNow s).errCode = s.errCode := rfl
@[simp] theorem afterNow_errInfo : (afterNow s).errInfo = s.errInfo := rfl
@[simp] theorem afterNow_tStart : (afterNow s).tStart = s.tStart := rfl
@[simp] theorem afterNow_tPre : (afterNow s).tPre = s.tPre := rfl
@[simp] theorem afterNow_tPost : (afterNow s).tPost = s.tPost := rfl
@[simp] theorem afterNow_deadline : (afterNow s).deadline = s.deadline := rfl
@[simp] theorem afterNow_traj : (afterNow s).traj = s.traj := rfl
@[simp] theorem afterNow_ts : (afterNow s).ts = s.ts := rfl
@[simp] theorem afterNow_pending : (afterNow s).pending = s.pending := rfl
@[simp] theorem afterNow_clkLast : (afterNow s).clkLast = nowValue s := rfl
@[simp] theorem afterNow_inputs : (afterNow s).inputs = s.inputs := rfl
@[simp] theorem afterNow_clockScript : (afterNow s).clockScript = s.clockScript.tail := rfl
@[simp] theorem afterNow_draws : (afterNow s).draws = s.draws + 1 := rfl
@[simp] theorem afterNow_xferCount : (afterNow s).xferCount = s.xferCount := rfl
@[simp] theorem afterNow_answer : (afterNow s).answer = s.answer := rfl
@[simp] theorem afterNow_events : (afterNow s).events = s.events := rfl

/-! ### raiseAbort -/

@[simp] theorem raiseAbort_acc (c : BitVec 4) (n : Word) : (raiseAbort c n s).acc = s.acc := rfl
@[simp] theorem raiseAbort_hdr0 (c : BitVec 4) (n : Word) : (raiseAbort c n s).hdr0 = s.hdr0 := rfl
@[simp] theorem raiseAbort_hdr1 (c : BitVec 4) (n : Word) : (raiseAbort c n s).hdr1 = s.hdr1 := rfl
@[simp] theorem raiseAbort_hdr2 (c : BitVec 4) (n : Word) : (raiseAbort c n s).hdr2 = s.hdr2 := rfl
@[simp] theorem raiseAbort_hdr3 (c : BitVec 4) (n : Word) : (raiseAbort c n s).hdr3 = s.hdr3 := rfl
@[simp] theorem raiseAbort_valA (c : BitVec 4) (n : Word) : (raiseAbort c n s).valA = s.valA := rfl
@[simp] theorem raiseAbort_valB (c : BitVec 4) (n : Word) : (raiseAbort c n s).valB = s.valB := rfl
@[simp] theorem raiseAbort_decA (c : BitVec 4) (n : Word) : (raiseAbort c n s).decA = s.decA := rfl
@[simp] theorem raiseAbort_decB (c : BitVec 4) (n : Word) : (raiseAbort c n s).decB = s.decB := rfl
@[simp] theorem raiseAbort_txbuf (c : BitVec 4) (n : Word) : (raiseAbort c n s).txbuf = s.txbuf := rfl
@[simp] theorem raiseAbort_rxbuf (c : BitVec 4) (n : Word) : (raiseAbort c n s).rxbuf = s.rxbuf := rfl
@[simp] theorem raiseAbort_runState (c : BitVec 4) (n : Word) : (raiseAbort c n s).runState = .finished := rfl
@[simp] theorem raiseAbort_phase (c : BitVec 4) (n : Word) : (raiseAbort c n s).phase = .done := rfl
@[simp] theorem raiseAbort_iter (c : BitVec 4) (n : Word) : (raiseAbort c n s).iter = s.iter := rfl
@[simp] theorem raiseAbort_cfg (c : BitVec 4) (n : Word) : (raiseAbort c n s).cfg = s.cfg := rfl
@[simp] theorem raiseAbort_ckVar (c : BitVec 4) (n : Word) : (raiseAbort c n s).ckVar = s.ckVar := rfl
@[simp] theorem raiseAbort_period (c : BitVec 4) (n : Word) : (raiseAbort c n s).period = s.period := rfl
@[simp] theorem raiseAbort_count (c : BitVec 4) (n : Word) : (raiseAbort c n s).count = s.count := rfl
@[simp] theorem raiseAbort_duration (c : BitVec 4) (n : Word) :
    (raiseAbort c n s).duration = s.duration := rfl
@[simp] theorem raiseAbort_trajLen (c : BitVec 4) (n : Word) : (raiseAbort c n s).trajLen = s.trajLen := rfl
@[simp] theorem raiseAbort_tsLen (c : BitVec 4) (n : Word) : (raiseAbort c n s).tsLen = s.tsLen := rfl
@[simp] theorem raiseAbort_errCode (c : BitVec 4) (n : Word) : (raiseAbort c n s).errCode = c := rfl
@[simp] theorem raiseAbort_errInfo (c : BitVec 4) (n : Word) : (raiseAbort c n s).errInfo = n := rfl
@[simp] theorem raiseAbort_tStart (c : BitVec 4) (n : Word) : (raiseAbort c n s).tStart = s.tStart := rfl
@[simp] theorem raiseAbort_tPre (c : BitVec 4) (n : Word) : (raiseAbort c n s).tPre = s.tPre := rfl
@[simp] theorem raiseAbort_tPost (c : BitVec 4) (n : Word) : (raiseAbort c n s).tPost = s.tPost := rfl
@[simp] theorem raiseAbort_deadline (c : BitVec 4) (n : Word) :
    (raiseAbort c n s).deadline = s.deadline := rfl
@[simp] theorem raiseAbort_traj (c : BitVec 4) (n : Word) : (raiseAbort c n s).traj = s.traj := rfl
@[simp] theorem raiseAbort_ts (c : BitVec 4) (n : Word) : (raiseAbort c n s).ts = s.ts := rfl
@[simp] theorem raiseAbort_pending (c : BitVec 4) (n : Word) : (raiseAbort c n s).pending = s.pending := rfl
@[simp] theorem raiseAbort_clkLast (c : BitVec 4) (n : Word) : (raiseAbort c n s).clkLast = s.clkLast := rfl
@[simp] theorem raiseAbort_inputs (c : BitVec 4) (n : Word) : (raiseAbort c n s).inputs = s.inputs := rfl
@[simp] theorem raiseAbort_clockScript (c : BitVec 4) (n : Word) :
    (raiseAbort c n s).clockScript = s.clockScript := rfl
@[simp] theorem raiseAbort_draws (c : BitVec 4) (n : Word) : (raiseAbort c n s).draws = s.draws := rfl
@[simp] theorem raiseAbort_xferCount (c : BitVec 4) (n : Word) :
    (raiseAbort c n s).xferCount = s.xferCount := rfl
@[simp] theorem raiseAbort_answer (c : BitVec 4) (n : Word) : (raiseAbort c n s).answer = s.answer := rfl
@[simp] theorem raiseAbort_events (c : BitVec 4) (n : Word) : (raiseAbort c n s).events = s.events := rfl

/-! ### raiseConfigError -/

@[simp] theorem raiseConfigError_acc : (raiseConfigError s).acc = s.acc := rfl
@[simp] theorem raiseConfigError_hdr0 : (raiseConfigError s).hdr0 = s.hdr0 := rfl
@[simp] theorem raiseConfigError_hdr1 : (raiseConfigError s).hdr1 = s.hdr1 := rfl
@[simp] theorem raiseConfigError_hdr2 : (raiseConfigError s).hdr2 = s.hdr2 := rfl
@[simp] theorem raiseConfigError_hdr3 : (raiseConfigError s).hdr3 = s.hdr3 := rfl
@[simp] theorem raiseConfigError_valA : (raiseConfigError s).valA = s.valA := rfl
@[simp] theorem raiseConfigError_valB : (raiseConfigError s).valB = s.valB := rfl
@[simp] theorem raiseConfigError_decA : (raiseConfigError s).decA = s.decA := rfl
@[simp] theorem raiseConfigError_decB : (raiseConfigError s).decB = s.decB := rfl
@[simp] theorem raiseConfigError_txbuf : (raiseConfigError s).txbuf = s.txbuf := rfl
@[simp] theorem raiseConfigError_rxbuf : (raiseConfigError s).rxbuf = s.rxbuf := rfl
@[simp] theorem raiseConfigError_runState : (raiseConfigError s).runState = s.runState := rfl
@[simp] theorem raiseConfigError_phase : (raiseConfigError s).phase = s.phase := rfl
@[simp] theorem raiseConfigError_iter : (raiseConfigError s).iter = s.iter := rfl
@[simp] theorem raiseConfigError_cfg : (raiseConfigError s).cfg = s.cfg := rfl
@[simp] theorem raiseConfigError_ckVar : (raiseConfigError s).ckVar = s.ckVar := rfl
@[simp] theorem raiseConfigError_period : (raiseConfigError s).period = s.period := rfl
@[simp] theorem raiseConfigError_count : (raiseConfigError s).count = s.count := rfl
@[simp] theorem raiseConfigError_duration : (raiseConfigError s).duration = s.duration := rfl
@[simp] theorem raiseConfigError_trajLen : (raiseConfigError s).trajLen = s.trajLen := rfl
@[simp] theorem raiseConfigError_tsLen : (raiseConfigError s).tsLen = s.tsLen := rfl
@[simp] theorem raiseConfigError_errCode : (raiseConfigError s).errCode = 1 := rfl
@[simp] theorem raiseConfigError_errInfo : (raiseConfigError s).errInfo = 0 := rfl
@[simp] theorem raiseConfigError_tStart : (raiseConfigError s).tStart = s.tStart := rfl
@[simp] theorem raiseConfigError_tPre : (raiseConfigError s).tPre = s.tPre := rfl
@[simp] theorem raiseConfigError_tPost : (raiseConfigError s).tPost = s.tPost := rfl
@[simp] theorem raiseConfigError_deadline : (raiseConfigError s).deadline = s.deadline := rfl
@[simp] theorem raiseConfigError_traj : (raiseConfigError s).traj = s.traj := rfl
@[simp] theorem raiseConfigError_ts : (raiseConfigError s).ts = s.ts := rfl
@[simp] theorem raiseConfigError_pending : (raiseConfigError s).pending = s.pending := rfl
@[simp] theorem raiseConfigError_clkLast : (raiseConfigError s).clkLast = s.clkLast := rfl
@[simp] theorem raiseConfigError_inputs : (raiseConfigError s).inputs = s.inputs := rfl
@[simp] theorem raiseConfigError_clockScript : (raiseConfigError s).clockScript = s.clockScript := rfl
@[simp] theorem raiseConfigError_draws : (raiseConfigError s).draws = s.draws := rfl
@[simp] theorem raiseConfigError_xferCount : (raiseConfigError s).xferCount = s.xferCount := rfl
@[simp] theorem raiseConfigError_answer : (raiseConfigError s).answer = s.answer := rfl
@[simp] theorem raiseConfigError_events : (raiseConfigError s).events = s.events := rfl

/-! ### finishRun -/

@[simp] theorem finishRun_acc : (finishRun s).acc = s.acc := rfl
@[simp] theorem finishRun_hdr0 : (finishRun s).hdr0 = s.hdr0 := rfl
@[simp] theorem finishRun_hdr1 : (finishRun s).hdr1 = s.hdr1 := rfl
@[simp] theorem finishRun_hdr2 : (finishRun s).hdr2 = s.hdr2 := rfl
@[simp] theorem finishRun_hdr3 : (finishRun s).hdr3 = s.hdr3 := rfl
@[simp] theorem finishRun_valA : (finishRun s).valA = s.valA := rfl
@[simp] theorem finishRun_valB : (finishRun s).valB = s.valB := rfl
@[simp] theorem finishRun_decA : (finishRun s).decA = s.decA := rfl
@[simp] theorem finishRun_decB : (finishRun s).decB = s.decB := rfl
@[simp] theorem finishRun_txbuf : (finishRun s).txbuf = s.txbuf := rfl
@[simp] theorem finishRun_rxbuf : (finishRun s).rxbuf = s.rxbuf := rfl
@[simp] theorem finishRun_runState : (finishRun s).runState = .finished := rfl
@[simp] theorem finishRun_phase : (finishRun s).phase = .done := rfl
@[simp] theorem finishRun_iter : (finishRun s).iter = s.iter := rfl
@[simp] theorem finishRun_cfg : (finishRun s).cfg = s.cfg := rfl
@[simp] theorem finishRun_ckVar : (finishRun s).ckVar = s.ckVar := rfl
@[simp] theorem finishRun_period : (finishRun s).period = s.period := rfl
@[simp] theorem finishRun_count : (finishRun s).count = s.count := rfl
@[simp] theorem finishRun_duration : (finishRun s).duration = s.duration := rfl
@[simp] theorem finishRun_trajLen : (finishRun s).trajLen = s.trajLen := rfl
@[simp] theorem finishRun_tsLen : (finishRun s).tsLen = s.tsLen := rfl
@[simp] theorem finishRun_errCode : (finishRun s).errCode = s.errCode := rfl
@[simp] theorem finishRun_errInfo : (finishRun s).errInfo = s.errInfo := rfl
@[simp] theorem finishRun_tStart : (finishRun s).tStart = s.tStart := rfl
@[simp] theorem finishRun_tPre : (finishRun s).tPre = s.tPre := rfl
@[simp] theorem finishRun_tPost : (finishRun s).tPost = s.tPost := rfl
@[simp] theorem finishRun_deadline : (finishRun s).deadline = s.deadline := rfl
@[simp] theorem finishRun_traj : (finishRun s).traj = s.traj := rfl
@[simp] theorem finishRun_ts : (finishRun s).ts = s.ts := rfl
@[simp] theorem finishRun_pending : (finishRun s).pending = s.pending := rfl
@[simp] theorem finishRun_clkLast : (finishRun s).clkLast = s.clkLast := rfl
@[simp] theorem finishRun_inputs : (finishRun s).inputs = s.inputs := rfl
@[simp] theorem finishRun_clockScript : (finishRun s).clockScript = s.clockScript := rfl
@[simp] theorem finishRun_draws : (finishRun s).draws = s.draws := rfl
@[simp] theorem finishRun_xferCount : (finishRun s).xferCount = s.xferCount := rfl
@[simp] theorem finishRun_answer : (finishRun s).answer = s.answer := rfl
@[simp] theorem finishRun_events : (finishRun s).events = s.events := rfl

/-! ### goto -/

@[simp] theorem goto_acc (p : Phase) : (goto p s).acc = s.acc := rfl
@[simp] theorem goto_hdr0 (p : Phase) : (goto p s).hdr0 = s.hdr0 := rfl
@[simp] theorem goto_hdr1 (p : Phase) : (goto p s).hdr1 = s.hdr1 := rfl
@[simp] theorem goto_hdr2 (p : Phase) : (goto p s).hdr2 = s.hdr2 := rfl
@[simp] theorem goto_hdr3 (p : Phase) : (goto p s).hdr3 = s.hdr3 := rfl
@[simp] theorem goto_valA (p : Phase) : (goto p s).valA = s.valA := rfl
@[simp] theorem goto_valB (p : Phase) : (goto p s).valB = s.valB := rfl
@[simp] theorem goto_decA (p : Phase) : (goto p s).decA = s.decA := rfl
@[simp] theorem goto_decB (p : Phase) : (goto p s).decB = s.decB := rfl
@[simp] theorem goto_txbuf (p : Phase) : (goto p s).txbuf = s.txbuf := rfl
@[simp] theorem goto_rxbuf (p : Phase) : (goto p s).rxbuf = s.rxbuf := rfl
@[simp] theorem goto_runState (p : Phase) : (goto p s).runState = s.runState := rfl
@[simp] theorem goto_phase (p : Phase) : (goto p s).phase = p := rfl
@[simp] theorem goto_iter (p : Phase) : (goto p s).iter = s.iter := rfl
@[simp] theorem goto_cfg (p : Phase) : (goto p s).cfg = s.cfg := rfl
@[simp] theorem goto_ckVar (p : Phase) : (goto p s).ckVar = s.ckVar := rfl
@[simp] theorem goto_period (p : Phase) : (goto p s).period = s.period := rfl
@[simp] theorem goto_count (p : Phase) : (goto p s).count = s.count := rfl
@[simp] theorem goto_duration (p : Phase) : (goto p s).duration = s.duration := rfl
@[simp] theorem goto_trajLen (p : Phase) : (goto p s).trajLen = s.trajLen := rfl
@[simp] theorem goto_tsLen (p : Phase) : (goto p s).tsLen = s.tsLen := rfl
@[simp] theorem goto_errCode (p : Phase) : (goto p s).errCode = s.errCode := rfl
@[simp] theorem goto_errInfo (p : Phase) : (goto p s).errInfo = s.errInfo := rfl
@[simp] theorem goto_tStart (p : Phase) : (goto p s).tStart = s.tStart := rfl
@[simp] theorem goto_tPre (p : Phase) : (goto p s).tPre = s.tPre := rfl
@[simp] theorem goto_tPost (p : Phase) : (goto p s).tPost = s.tPost := rfl
@[simp] theorem goto_deadline (p : Phase) : (goto p s).deadline = s.deadline := rfl
@[simp] theorem goto_traj (p : Phase) : (goto p s).traj = s.traj := rfl
@[simp] theorem goto_ts (p : Phase) : (goto p s).ts = s.ts := rfl
@[simp] theorem goto_pending (p : Phase) : (goto p s).pending = s.pending := rfl
@[simp] theorem goto_clkLast (p : Phase) : (goto p s).clkLast = s.clkLast := rfl
@[simp] theorem goto_inputs (p : Phase) : (goto p s).inputs = s.inputs := rfl
@[simp] theorem goto_clockScript (p : Phase) : (goto p s).clockScript = s.clockScript := rfl
@[simp] theorem goto_draws (p : Phase) : (goto p s).draws = s.draws := rfl
@[simp] theorem goto_xferCount (p : Phase) : (goto p s).xferCount = s.xferCount := rfl
@[simp] theorem goto_answer (p : Phase) : (goto p s).answer = s.answer := rfl
@[simp] theorem goto_events (p : Phase) : (goto p s).events = s.events := rfl

/-! ### emit -/

@[simp] theorem emit_acc (e : Event) : (emit e s).acc = s.acc := rfl
@[simp] theorem emit_hdr0 (e : Event) : (emit e s).hdr0 = s.hdr0 := rfl
@[simp] theorem emit_hdr1 (e : Event) : (emit e s).hdr1 = s.hdr1 := rfl
@[simp] theorem emit_hdr2 (e : Event) : (emit e s).hdr2 = s.hdr2 := rfl
@[simp] theorem emit_hdr3 (e : Event) : (emit e s).hdr3 = s.hdr3 := rfl
@[simp] theorem emit_valA (e : Event) : (emit e s).valA = s.valA := rfl
@[simp] theorem emit_valB (e : Event) : (emit e s).valB = s.valB := rfl
@[simp] theorem emit_decA (e : Event) : (emit e s).decA = s.decA := rfl
@[simp] theorem emit_decB (e : Event) : (emit e s).decB = s.decB := rfl
@[simp] theorem emit_txbuf (e : Event) : (emit e s).txbuf = s.txbuf := rfl
@[simp] theorem emit_rxbuf (e : Event) : (emit e s).rxbuf = s.rxbuf := rfl
@[simp] theorem emit_runState (e : Event) : (emit e s).runState = s.runState := rfl
@[simp] theorem emit_phase (e : Event) : (emit e s).phase = s.phase := rfl
@[simp] theorem emit_iter (e : Event) : (emit e s).iter = s.iter := rfl
@[simp] theorem emit_cfg (e : Event) : (emit e s).cfg = s.cfg := rfl
@[simp] theorem emit_ckVar (e : Event) : (emit e s).ckVar = s.ckVar := rfl
@[simp] theorem emit_period (e : Event) : (emit e s).period = s.period := rfl
@[simp] theorem emit_count (e : Event) : (emit e s).count = s.count := rfl
@[simp] theorem emit_duration (e : Event) : (emit e s).duration = s.duration := rfl
@[simp] theorem emit_trajLen (e : Event) : (emit e s).trajLen = s.trajLen := rfl
@[simp] theorem emit_tsLen (e : Event) : (emit e s).tsLen = s.tsLen := rfl
@[simp] theorem emit_errCode (e : Event) : (emit e s).errCode = s.errCode := rfl
@[simp] theorem emit_errInfo (e : Event) : (emit e s).errInfo = s.errInfo := rfl
@[simp] theorem emit_tStart (e : Event) : (emit e s).tStart = s.tStart := rfl
@[simp] theorem emit_tPre (e : Event) : (emit e s).tPre = s.tPre := rfl
@[simp] theorem emit_tPost (e : Event) : (emit e s).tPost = s.tPost := rfl
@[simp] theorem emit_deadline (e : Event) : (emit e s).deadline = s.deadline := rfl
@[simp] theorem emit_traj (e : Event) : (emit e s).traj = s.traj := rfl
@[simp] theorem emit_ts (e : Event) : (emit e s).ts = s.ts := rfl
@[simp] theorem emit_pending (e : Event) : (emit e s).pending = s.pending := rfl
@[simp] theorem emit_clkLast (e : Event) : (emit e s).clkLast = s.clkLast := rfl
@[simp] theorem emit_inputs (e : Event) : (emit e s).inputs = s.inputs := rfl
@[simp] theorem emit_clockScript (e : Event) : (emit e s).clockScript = s.clockScript := rfl
@[simp] theorem emit_draws (e : Event) : (emit e s).draws = s.draws := rfl
@[simp] theorem emit_xferCount (e : Event) : (emit e s).xferCount = s.xferCount := rfl
@[simp] theorem emit_answer (e : Event) : (emit e s).answer = s.answer := rfl
@[simp] theorem emit_events (e : Event) : (emit e s).events = s.events ++ [e] := rfl

/-! ### encodeFrame -/

@[simp] theorem encodeFrame_acc (p : CrcParams) :
    (encodeFrame p s).acc = crcAcc p (body s.hdr0 s.hdr1 s.hdr2 s.hdr3 s.valA s.valB) := rfl
@[simp] theorem encodeFrame_hdr0 (p : CrcParams) : (encodeFrame p s).hdr0 = s.hdr0 := rfl
@[simp] theorem encodeFrame_hdr1 (p : CrcParams) : (encodeFrame p s).hdr1 = s.hdr1 := rfl
@[simp] theorem encodeFrame_hdr2 (p : CrcParams) : (encodeFrame p s).hdr2 = s.hdr2 := rfl
@[simp] theorem encodeFrame_hdr3 (p : CrcParams) : (encodeFrame p s).hdr3 = s.hdr3 := rfl
@[simp] theorem encodeFrame_valA (p : CrcParams) : (encodeFrame p s).valA = s.valA := rfl
@[simp] theorem encodeFrame_valB (p : CrcParams) : (encodeFrame p s).valB = s.valB := rfl
@[simp] theorem encodeFrame_decA (p : CrcParams) : (encodeFrame p s).decA = s.decA := rfl
@[simp] theorem encodeFrame_decB (p : CrcParams) : (encodeFrame p s).decB = s.decB := rfl
@[simp] theorem encodeFrame_txbuf (p : CrcParams) :
    (encodeFrame p s).txbuf = frame p s.hdr0 s.hdr1 s.hdr2 s.hdr3 s.valA s.valB := rfl
@[simp] theorem encodeFrame_rxbuf (p : CrcParams) : (encodeFrame p s).rxbuf = s.rxbuf := rfl
@[simp] theorem encodeFrame_runState (p : CrcParams) : (encodeFrame p s).runState = s.runState := rfl
@[simp] theorem encodeFrame_phase (p : CrcParams) : (encodeFrame p s).phase = s.phase := rfl
@[simp] theorem encodeFrame_iter (p : CrcParams) : (encodeFrame p s).iter = s.iter := rfl
@[simp] theorem encodeFrame_cfg (p : CrcParams) : (encodeFrame p s).cfg = s.cfg := rfl
@[simp] theorem encodeFrame_ckVar (p : CrcParams) : (encodeFrame p s).ckVar = .crc16 := rfl
@[simp] theorem encodeFrame_period (p : CrcParams) : (encodeFrame p s).period = s.period := rfl
@[simp] theorem encodeFrame_count (p : CrcParams) : (encodeFrame p s).count = s.count := rfl
@[simp] theorem encodeFrame_duration (p : CrcParams) : (encodeFrame p s).duration = s.duration := rfl
@[simp] theorem encodeFrame_trajLen (p : CrcParams) : (encodeFrame p s).trajLen = s.trajLen := rfl
@[simp] theorem encodeFrame_tsLen (p : CrcParams) : (encodeFrame p s).tsLen = s.tsLen := rfl
@[simp] theorem encodeFrame_errCode (p : CrcParams) : (encodeFrame p s).errCode = s.errCode := rfl
@[simp] theorem encodeFrame_errInfo (p : CrcParams) : (encodeFrame p s).errInfo = s.errInfo := rfl
@[simp] theorem encodeFrame_tStart (p : CrcParams) : (encodeFrame p s).tStart = s.tStart := rfl
@[simp] theorem encodeFrame_tPre (p : CrcParams) : (encodeFrame p s).tPre = s.tPre := rfl
@[simp] theorem encodeFrame_tPost (p : CrcParams) : (encodeFrame p s).tPost = s.tPost := rfl
@[simp] theorem encodeFrame_deadline (p : CrcParams) : (encodeFrame p s).deadline = s.deadline := rfl
@[simp] theorem encodeFrame_traj (p : CrcParams) : (encodeFrame p s).traj = s.traj := rfl
@[simp] theorem encodeFrame_ts (p : CrcParams) : (encodeFrame p s).ts = s.ts := rfl
@[simp] theorem encodeFrame_pending (p : CrcParams) : (encodeFrame p s).pending = s.pending := rfl
@[simp] theorem encodeFrame_clkLast (p : CrcParams) : (encodeFrame p s).clkLast = s.clkLast := rfl
@[simp] theorem encodeFrame_inputs (p : CrcParams) : (encodeFrame p s).inputs = s.inputs := rfl
@[simp] theorem encodeFrame_clockScript (p : CrcParams) : (encodeFrame p s).clockScript = s.clockScript := rfl
@[simp] theorem encodeFrame_draws (p : CrcParams) : (encodeFrame p s).draws = s.draws := rfl
@[simp] theorem encodeFrame_xferCount (p : CrcParams) : (encodeFrame p s).xferCount = s.xferCount := rfl
@[simp] theorem encodeFrame_answer (p : CrcParams) : (encodeFrame p s).answer = s.answer := rfl
@[simp] theorem encodeFrame_events (p : CrcParams) : (encodeFrame p s).events = s.events := rfl

/-! ### decodeFrame -/

@[simp] theorem decodeFrame_acc : (decodeFrame s).acc = s.acc := rfl
@[simp] theorem decodeFrame_hdr0 : (decodeFrame s).hdr0 = s.hdr0 := rfl
@[simp] theorem decodeFrame_hdr1 : (decodeFrame s).hdr1 = s.hdr1 := rfl
@[simp] theorem decodeFrame_hdr2 : (decodeFrame s).hdr2 = s.hdr2 := rfl
@[simp] theorem decodeFrame_hdr3 : (decodeFrame s).hdr3 = s.hdr3 := rfl
@[simp] theorem decodeFrame_valA : (decodeFrame s).valA = s.valA := rfl
@[simp] theorem decodeFrame_valB : (decodeFrame s).valB = s.valB := rfl
@[simp] theorem decodeFrame_decA : (decodeFrame s).decA = (values s.rxbuf).1 := rfl
@[simp] theorem decodeFrame_decB : (decodeFrame s).decB = (values s.rxbuf).2 := rfl
@[simp] theorem decodeFrame_txbuf : (decodeFrame s).txbuf = s.txbuf := rfl
@[simp] theorem decodeFrame_rxbuf : (decodeFrame s).rxbuf = s.rxbuf := rfl
@[simp] theorem decodeFrame_runState : (decodeFrame s).runState = s.runState := rfl
@[simp] theorem decodeFrame_phase : (decodeFrame s).phase = s.phase := rfl
@[simp] theorem decodeFrame_iter : (decodeFrame s).iter = s.iter := rfl
@[simp] theorem decodeFrame_cfg : (decodeFrame s).cfg = s.cfg := rfl
@[simp] theorem decodeFrame_ckVar : (decodeFrame s).ckVar = s.ckVar := rfl
@[simp] theorem decodeFrame_period : (decodeFrame s).period = s.period := rfl
@[simp] theorem decodeFrame_count : (decodeFrame s).count = s.count := rfl
@[simp] theorem decodeFrame_duration : (decodeFrame s).duration = s.duration := rfl
@[simp] theorem decodeFrame_trajLen : (decodeFrame s).trajLen = s.trajLen := rfl
@[simp] theorem decodeFrame_tsLen : (decodeFrame s).tsLen = s.tsLen := rfl
@[simp] theorem decodeFrame_errCode : (decodeFrame s).errCode = s.errCode := rfl
@[simp] theorem decodeFrame_errInfo : (decodeFrame s).errInfo = s.errInfo := rfl
@[simp] theorem decodeFrame_tStart : (decodeFrame s).tStart = s.tStart := rfl
@[simp] theorem decodeFrame_tPre : (decodeFrame s).tPre = s.tPre := rfl
@[simp] theorem decodeFrame_tPost : (decodeFrame s).tPost = s.tPost := rfl
@[simp] theorem decodeFrame_deadline : (decodeFrame s).deadline = s.deadline := rfl
@[simp] theorem decodeFrame_traj : (decodeFrame s).traj = s.traj := rfl
@[simp] theorem decodeFrame_ts : (decodeFrame s).ts = s.ts := rfl
@[simp] theorem decodeFrame_pending : (decodeFrame s).pending = s.pending := rfl
@[simp] theorem decodeFrame_clkLast : (decodeFrame s).clkLast = s.clkLast := rfl
@[simp] theorem decodeFrame_inputs : (decodeFrame s).inputs = s.inputs := rfl
@[simp] theorem decodeFrame_clockScript : (decodeFrame s).clockScript = s.clockScript := rfl
@[simp] theorem decodeFrame_draws : (decodeFrame s).draws = s.draws := rfl
@[simp] theorem decodeFrame_xferCount : (decodeFrame s).xferCount = s.xferCount := rfl
@[simp] theorem decodeFrame_answer : (decodeFrame s).answer = s.answer := rfl
@[simp] theorem decodeFrame_events : (decodeFrame s).events = s.events := rfl

end Sys2Proof.Machine
end

