-- ==== Sys2Proof/Laws/Ops.lean ====
section
/-! SUPPORT. One lemma per shared operation, saying once what it can do. -/

namespace Sys2Proof.Machine

/-- R84: a read of the clock never goes back. -/
theorem clkLast_le_nowValue (s : State) : s.clkLast ≤ nowValue s := by
  unfold nowValue
  split
  · assumption
  · exact BitVec.le_refl _

theorem whenNotRunning_running {f : State → State} {s : State} (h : s.runState = .running) :
    whenNotRunning f s = raiseBusErr s := by
  simp [whenNotRunning, h]

theorem whenNotRunning_open {f : State → State} {s : State} (h : s.runState ≠ .running) :
    whenNotRunning f s = answerOk 0 (f s) := by
  simp [whenNotRunning, h]

theorem trajRead_eq_some {P : Params} {a : Nat} {s : State} {v : Word} :
    trajRead P a s = some v ↔ a < P.trajCap ∧ s.traj.read a = v := by
  unfold trajRead
  split <;> simp_all

theorem tsWrite_eq_some {P : Params} {a : Nat} {v : DWord} {s t : State} :
    tsWrite P a v s = some t ↔ a < P.tsCap ∧ t = { s with ts := s.ts.write a v } := by
  unfold tsWrite
  split <;> simp_all [eq_comm]

/-- Phase ENC, when it has a next state. -/
theorem encStep_eq_some {P : Params} {s t : State} :
    encStep P s = some t ↔ s.iter.toNat < P.trajCap ∧
      t = goto .xreq (encodeFrame P.crc (loadSample P.axisMap (s.traj.read s.iter.toNat) s)) := by
  unfold encStep trajRead
  split
  · rename_i v h
    split at h
    · cases h; simp_all [eq_comm]
    · cases h
  · rename_i h
    split at h
    · cases h
    · simp_all

/-- TS after an iteration's stamps. -/
def stampedTs (s : State) : Mem 64 :=
  if twoStamps s then (s.ts.write s.tsLen.toNat s.tPre).write (s.tsLen.toNat + 1) s.tPost
  else s.ts.write s.tsLen.toNat s.tPre

/-- The stamps of an iteration fit when the last of them does. -/
theorem appendStamps_eq_some {P : Params} {s t : State} :
    appendStamps P s = some t ↔
      s.tsLen.toNat + stampsPerIter s ≤ P.tsCap ∧ t = { s with ts := stampedTs s } := by
  unfold appendStamps tsWrite stampsPerIter stampedTs
  by_cases h2 : twoStamps s = true
  · by_cases h0 : s.tsLen.toNat < P.tsCap
    · by_cases h1 : s.tsLen.toNat + 1 < P.tsCap
      · have : s.tsLen.toNat + 2 ≤ P.tsCap := by omega
        simp [h0, h1, h2, this, eq_comm]
      · have : ¬ s.tsLen.toNat + 2 ≤ P.tsCap := by omega
        simp [h0, h1, h2, this]
    · have : ¬ s.tsLen.toNat + 2 ≤ P.tsCap := by omega
      simp [h0, h2, this]
  · by_cases h0 : s.tsLen.toNat < P.tsCap
    · have : s.tsLen.toNat + 1 ≤ P.tsCap := by omega
      simp [h0, h2, this, eq_comm]
    · have : ¬ s.tsLen.toNat + 1 ≤ P.tsCap := by omega
      simp [h0, h2, this]

/-- The state phase APPEND leaves. -/
def appended (s : State) : State :=
  emit (.row s.iter s.tPre s.tPost s.valA s.valB s.decA s.decB)
    { s with
      ts := stampedTs s
      tsLen := s.tsLen + BitVec.ofNat 32 (stampsPerIter s)
      iter := s.iter + 1
      phase := .check }

/-- Phase APPEND, when it has a next state. -/
theorem appendStep_eq_some {P : Params} {s t : State} :
    appendStep P s = some t ↔ s.tsLen.toNat + stampsPerIter s ≤ P.tsCap ∧ t = appended s := by
  unfold appendStep
  split
  · rename_i h
    have hn : ¬ s.tsLen.toNat + stampsPerIter s ≤ P.tsCap := fun hle => by
      have := (appendStamps_eq_some (P := P) (s := s)).mpr ⟨hle, rfl⟩
      rw [h] at this
      cases this
    simp [hn]
  · rename_i u h
    obtain ⟨hle, rfl⟩ := appendStamps_eq_some.mp h
    simp only [hle, true_and, Option.some.injEq]
    constructor
    · rintro rfl; rfl
    · rintro rfl; rfl

/-- R84, R86: the two ports of the environment aside, an answer changes only the pending transfer. -/
theorem transportTurn_eq (n : Nat) (a : XferAnswer) (s : State) :
    transportTurn n a s = { s with pending := (transportTurn n a s).pending } := by
  unfold transportTurn
  split
  · split <;> rfl
  · rfl

/-- What the pending transfer is after TRANSPORT's turn. -/
theorem transportTurn_pending (n : Nat) (a : XferAnswer) (s : State) :
    (transportTurn n a s).pending = s.pending ∨
      ∃ x, s.pending = some x ∧ x.serial = n ∧ x.answer = none ∧
        (transportTurn n a s).pending = some { x with answer := some a } := by
  unfold transportTurn
  split
  · split
    · exact .inr ⟨_, ‹_›, (‹_ ∧ _›).1, (‹_ ∧ _›).2, rfl⟩
    · exact .inl rfl
  · exact .inl rfl

/-- The capacities are at least 1 and fit their 32-bit counters (R5). -/
theorem Config.trajCap_pos : 0 < Config.trajCap := Nat.succ_pos _

theorem Config.tsCap_pos : 0 < Config.tsCap := Nat.succ_pos _

theorem Config.trajCap_lt : Config.trajCap < 2 ^ 32 := by
  have := Nat.mod_lt Config.trajCapDraw (show 0 < 2 ^ 32 - 1 by decide)
  unfold Config.trajCap
  omega

theorem Config.tsCap_lt : Config.tsCap < 2 ^ 32 := by
  have := Nat.mod_lt Config.tsCapDraw (show 0 < 2 ^ 32 - 1 by decide)
  unfold Config.tsCap
  omega

/-- RUNMODE in numbers (R31). -/
theorem byDuration_iff (s : State) : byDuration s = true ↔ s.cfg.toNat % 2 = 1 := by
  simp [byDuration, BitVec.getLsbD, Nat.testBit_eq_decide_div_mod_eq]

/-- `1 + STAMPMODE` in numbers (R31). -/
theorem stampsPerIter_eq (s : State) : stampsPerIter s = 1 + s.cfg.toNat / 2 % 2 := by
  unfold stampsPerIter twoStamps
  simp only [BitVec.getLsbD, Nat.testBit_eq_decide_div_mod_eq, decide_eq_true_eq]
  split <;> omega

/-- Phase CHECK ends the run or goes to WAIT (R198). -/
theorem checkStep_cases (s : State) :
    (byDuration s = false ∧ s.iter = s.count ∧ checkStep s = finishRun s) ∨
    ((byDuration s = true ∨ s.iter ≠ s.count) ∧ checkStep s =
      { s with deadline := s.iter.setWidth 64 * s.period.setWidth 64, phase := .wait }) := by
  unfold checkStep
  split
  · rename_i h; exact .inl ⟨h.1, h.2, rfl⟩
  · rename_i h
    refine .inr ⟨?_, rfl⟩
    cases hb : byDuration s
    · exact .inr fun e => h ⟨hb, e⟩
    · exact .inl rfl

/-- A poll ends the run, passes, or stays (R201). -/
theorem pollStep_cases (n : DWord) (s : State) :
    (byDuration s = true ∧ s.duration ≤ n - s.tStart ∧ pollStep n s = finishRun s) ∨
    (¬ (byDuration s = true ∧ s.duration ≤ n - s.tStart) ∧ s.deadline ≤ n - s.tStart ∧
      pollStep n s = goto .pre s) ∨
    (¬ (byDuration s = true ∧ s.duration ≤ n - s.tStart) ∧ ¬ s.deadline ≤ n - s.tStart ∧
      pollStep n s = goto .wait s) := by
  unfold pollStep
  split
  · rename_i h; exact .inl ⟨h.1, h.2, rfl⟩
  · split
    · exact .inr (.inl ⟨‹_›, ‹_›, rfl⟩)
    · exact .inr (.inr ⟨‹_›, ‹_›, rfl⟩)

/-- An answer is taken or aborts the run (R209, R211). -/
theorem answerStep_cases (a : XferAnswer) (s : State) :
    (a.success = true ∧ answerStep a s =
      { emit (.xferAns s.iter a) { s with pending := none } with rxbuf := a.data, phase := .dec }) ∨
    (a.success = false ∧ answerStep a s = raiseAbort 3 s.iter
      { emit (.xferAns s.iter a) { s with pending := none } with
        rxbuf := Config.failedRxbuf s.draws
        draws := s.draws + 1 }) := by
  unfold answerStep
  cases h : a.success
  · exact .inr ⟨rfl, rfl⟩
  · exact .inl ⟨rfl, rfl⟩

/-- R22, R134: an ADD8 accumulator has a zero high byte. -/
theorem addByte_lt (a : Half) (b : Byte) : (addByte a b).toNat < 256 := by
  have h := (a.setWidth 8 + b).isLt
  simp only [addByte, BitVec.toNat_setWidth]
  omega

/-- `n` shift steps are `crcBit` iterated (R132). -/
theorem crcShift_eq_iterate (p : CrcParams) (n : Nat) (a : Half) : crcShift p n a = (crcBit p)^[n] a := by
  induction n generalizing a with
  | zero => rfl
  | succ n ih => rw [crcShift, ih, Function.iterate_succ_apply]

end Sys2Proof.Machine
end

