-- ==== Sys2Proof/Laws/Exec.lean ====
section
/-! SUPPORT. The inversion of `exec` and of `step`: every next state is one of the listed changes. Later
proofs take cases on these instead of unfolding the meanings. -/

namespace Sys2Proof.Machine

/-- `Did i s t`: the instruction `i` made `t` of `s`, and how. -/
inductive Did : Instr → State → State → Prop
  | busErr {i s} (host : isHost i = true) : Did i s (raiseBusErr s)
  | readReg {r s} : Did (.rdReg r) s (answerOk (readReg Config.params r s) s)
  | readTraj {idx s} (inside : idx.toNat < Config.trajCap) :
      Did (.rdTraj idx) s (answerOk ((s.traj.read idx.toNat).setWidth 64) s)
  | readTs {idx s} (free : s.runState ≠ .running) (inside : idx < s.tsLen) :
      Did (.rdTs idx) s (answerOk (s.ts.read idx.toNat) s)
  | store {r wdata s} (allowed : writeAllowed r s = true) (plain : r ≠ .cmd) :
      Did (.wrReg r wdata) s (answerOk 0 (writeReg r wdata s))
  | storeTraj {idx wdata s} (inside : idx.toNat < Config.trajCap) (idle : s.runState = .idle) :
      Did (.wrTraj idx wdata) s (answerOk 0 (trajWrite idx.toNat (wdata.setWidth 32) s))
  | ckinit {i var s} (command : carries i (.ckinit var) = true) (free : s.runState ≠ .running) :
      Did i s (answerOk 0 (ckInit Config.params.crc var s))
  | ckbyte {i b s} (command : carries i (.ckbyte b) = true) (free : s.runState ≠ .running) :
      Did i s (answerOk 0 (ckByte Config.params.crc b s))
  | ckbuf {i var buf n s} (command : carries i (.ckbuf var buf n) = true) (short : n.toNat ≤ 14)
      (free : s.runState ≠ .running) : Did i s (answerOk 0 (ckBuf Config.params.crc var buf n s))
  | encode {i s} (command : carries i .enc = true) (free : s.runState ≠ .running) :
      Did i s (answerOk 0 (encodeFrame Config.params.crc s))
  | decode {i s} (command : carries i .dec = true) (free : s.runState ≠ .running) :
      Did i s (answerOk 0 (decodeFrame s))
  | start {i s} (command : carries i .start = true) (idle : s.runState = .idle) (clean : s.errCode = 0)
      (valid : cfgValid Config.params s = true) : Did i s (answerOk 0 (startRun s))
  | configError {i s} (command : carries i .start = true) (idle : s.runState = .idle)
      (clean : s.errCode = 0) (invalid : cfgValid Config.params s = false) :
      Did i s (answerOk 0 (raiseConfigError s))
  | phIdle {s} : Did .phIdle s s
  | phCheck {s} : Did .phCheck s (checkStep s)
  | phWait {s} : Did .phWait s (pollStep (nowValue s) (afterNow s))
  | phPre {s} : Did .phPre s { afterNow s with tPre := nowValue s, phase := .enc }
  | phEnc {s} (inside : s.iter.toNat < Config.trajCap) :
      Did .phEnc s (goto .xreq (encodeFrame Config.params.crc
        (loadSample Config.axisMap (s.traj.read s.iter.toNat) s)))
  | phXreq {s} : Did .phXreq s (requestStep s)
  | held {s} (unanswered : s.pending.bind (·.answer) = none) : Did .phXwait s s
  | answered {s a} (answer : s.pending.bind (·.answer) = some a) : Did .phXwait s (answerStep a s)
  | phDec {s} : Did .phDec s (goto .post (decodeFrame s))
  | phPost {s} : Did .phPost s { afterNow s with tPost := nowValue s, phase := .append }
  | phAppend {s} (inside : s.tsLen.toNat + stampsPerIter s ≤ Config.tsCap) : Did .phAppend s (appended s)
  | phDone {s} : Did .phDone s s

theorem execCommand_eq_exec (c : Command) (s : State) : execCommand c s = exec c.toInstr s := by
  cases c <;> rfl

/-- What a command does, whichever instruction carries it. -/
theorem execCommand_did {c : Command} {i : Instr} {s t : State} (hi : isHost i = true)
    (hc : carries i c = true) (h : execCommand c s = .next t) : Did i s t := by
  cases c with
  | ckinit var =>
    cases h
    by_cases hr : s.runState = .running
    · rw [whenNotRunning_running hr]; exact .busErr hi
    · rw [whenNotRunning_open hr]; exact .ckinit hc hr
  | ckbyte b =>
    cases h
    by_cases hr : s.runState = .running
    · rw [whenNotRunning_running hr]; exact .busErr hi
    · rw [whenNotRunning_open hr]; exact .ckbyte hc hr
  | ckbuf var buf n =>
    cases h
    by_cases hn : n.toNat ≤ frameLen
    · rw [if_pos hn]
      by_cases hr : s.runState = .running
      · rw [whenNotRunning_running hr]; exact .busErr hi
      · rw [whenNotRunning_open hr]; exact .ckbuf hc hn hr
    · rw [if_neg hn]; exact .busErr hi
  | enc =>
    cases h
    by_cases hr : s.runState = .running
    · rw [whenNotRunning_running hr]; exact .busErr hi
    · rw [whenNotRunning_open hr]; exact .encode hc hr
  | dec =>
    cases h
    by_cases hr : s.runState = .running
    · rw [whenNotRunning_running hr]; exact .busErr hi
    · rw [whenNotRunning_open hr]; exact .decode hc hr
  | start =>
    cases h
    unfold startCommand
    split
    · exact .busErr hi
    · split
      · exact .busErr hi
      · rename_i h1 h2
        rw [not_not] at h1 h2
        split
        · exact .start hc h1 h2 ‹_›
        · rename_i h3
          exact .configError hc h1 h2 (Bool.not_eq_true _ ▸ h3)

theorem carries_toInstr (c : Command) : carries c.toInstr c = true := by
  simp [carries]

/-- WR.REG, refused (R172). -/
theorem exec_wrReg_refused {r : Reg} {s : State} (wdata : DWord) (h : writeAllowed r s = false) :
    exec (.wrReg r wdata) s = .next (raiseBusErr s) := by
  show execWrReg r wdata s = _
  unfold execWrReg
  rw [if_neg (by rw [h]; exact Bool.false_ne_true)]

/-- WR.REG, a plain store (R171). -/
theorem exec_wrReg_store {r : Reg} {s : State} (wdata : DWord) (h : writeAllowed r s = true)
    (hr : r ≠ .cmd) : exec (.wrReg r wdata) s = .next (answerOk 0 (writeReg r wdata s)) := by
  show execWrReg r wdata s = _
  unfold execWrReg
  rw [if_pos h, if_neg hr]

theorem writeAllowed_cmd (s : State) : writeAllowed .cmd s = decide (s.runState ≠ .running) := rfl

/-- WR.REG at the command port, not refused (R108). -/
theorem exec_wrReg_cmd {s : State} (wdata : DWord) (h : s.runState ≠ .running) :
    exec (.wrReg .cmd wdata) s = writeCommand wdata s := by
  show execWrReg .cmd wdata s = _
  unfold execWrReg
  rw [if_pos (by rw [writeAllowed_cmd]; exact decide_eq_true h), if_pos rfl]

/-- The inversion of `exec`. -/
theorem exec_did {i : Instr} {s t : State} (h : exec i s = .next t) : Did i s t := by
  cases i with
  | rdReg r => cases h; exact .readReg
  | wrReg r wdata =>
    simp only [exec, execWrReg] at h
    split at h
    · split at h
      · rename_i hr
        subst hr
        unfold writeCommand at h
        split at h
        · rename_i c hd
          exact execCommand_did rfl (by simp [carries, hd]) h
        · cases h; exact .busErr rfl
      · cases h; exact .store ‹_› ‹_›
    · cases h; exact .busErr rfl
  | rdTraj idx =>
    cases h
    unfold readTrajectory
    split
    · rename_i v hv
      obtain ⟨hlt, rfl⟩ := trajRead_eq_some.mp hv
      exact .readTraj hlt
    · exact .busErr rfl
  | wrTraj idx wdata =>
    cases h
    unfold writeTrajectory
    split
    · exact .busErr rfl
    · split
      · exact .busErr rfl
      · rename_i h1 h2
        rw [not_not] at h2
        exact .storeTraj (Nat.lt_of_not_le h1) h2
  | rdTs idx =>
    cases h
    split
    · exact .busErr rfl
    · split
      · exact .busErr rfl
      · exact .readTs ‹_› (BitVec.not_le.mp ‹_›)
  | ckinit var => exact execCommand_did (c := .ckinit var) rfl (carries_toInstr (.ckinit var)) h
  | ckbyte b => exact execCommand_did (c := .ckbyte b) rfl (carries_toInstr (.ckbyte b)) h
  | ckbuf var buf n => exact execCommand_did (c := .ckbuf var buf n) rfl (carries_toInstr (.ckbuf var buf n)) h
  | enc => exact execCommand_did (c := .enc) rfl (carries_toInstr (.enc)) h
  | dec => exact execCommand_did (c := .dec) rfl (carries_toInstr (.dec)) h
  | start => exact execCommand_did (c := .start) rfl (carries_toInstr (.start)) h
  | phIdle => cases h; exact .phIdle
  | phCheck => cases h; exact .phCheck
  | phWait => cases h; exact .phWait
  | phPre => cases h; exact .phPre
  | phEnc =>
    simp only [exec, execPhEnc] at h
    split at h
    · rename_i u hu
      cases h
      obtain ⟨hlt, rfl⟩ := encStep_eq_some.mp hu
      exact .phEnc hlt
    · cases h
  | phXreq => cases h; exact .phXreq
  | phXwait =>
    cases h
    unfold xwaitStep
    split
    · exact .answered ‹_›
    · exact .held ‹_›
  | phDec => cases h; exact .phDec
  | phPost => cases h; exact .phPost
  | phAppend =>
    simp only [exec, execPhAppend] at h
    split at h
    · rename_i u hu
      cases h
      obtain ⟨hle, rfl⟩ := appendStep_eq_some.mp hu
      exact .phAppend hle
    · cases h
  | phDone => cases h; exact .phDone

/-- The sequencer's turn is the instruction PHASE stands for. -/
theorem seqTurn_eq (s : State) : seqTurn s = exec s.phase.toInstr s := by
  simp [seqTurn, decode_phase_code]

/-- The state an agent's turn starts from: the oldest input taken. -/
def taken (s : State) : State := { s with inputs := s.inputs.tail }

theorem taken_of_nil {s : State} (h : s.inputs = []) : taken s = s := by
  cases s; simp_all [taken]

/-- The inversion of `step`: a host instruction, an illegal transaction, the sequencer's phase, an answer of
the transport, or a reset. -/
theorem step_cases {s t : State} (h : step s = .next t) :
    (∃ w rest i, s.inputs = .host w :: rest ∧ decode (.bus w) = .ok i ∧ isHost i = true ∧
        exec i (taken s) = .next t) ∨
    (∃ w rest why, s.inputs = .host w :: rest ∧ decode (.bus w) = .rejected why ∧
        t = raiseBusErr (taken s)) ∨
    ((s.inputs = [] ∨ ∃ rest, s.inputs = .seq :: rest) ∧
        exec (taken s).phase.toInstr (taken s) = .next t) ∨
    (∃ n a rest, s.inputs = .transport n a :: rest ∧ t = transportTurn n a (taken s)) ∨
    (∃ rest, s.inputs = .reset :: rest ∧ t = resetTurn (taken s)) := by
  unfold step turn at h
  split at h
  · rename_i hn
    rw [seqTurn_eq] at h
    exact .inr (.inr (.inl ⟨.inl hn, by rwa [taken_of_nil hn]⟩))
  · rename_i rest hn
    rw [seqTurn_eq] at h
    exact .inr (.inr (.inl ⟨.inr ⟨rest, hn⟩, by simpa [taken, hn] using h⟩))
  · rename_i w rest hn
    unfold hostTurn at h
    split at h
    · rename_i i hd
      exact .inl ⟨w, rest, i, hn, hd, decodeBus_isHost hd, by simpa [taken, hn] using h⟩
    · rename_i why hd
      cases h
      exact .inr (.inl ⟨w, rest, why, hn, hd, by simp [taken, hn]⟩)
  · rename_i n a rest hn
    cases h
    exact .inr (.inr (.inr (.inl ⟨n, a, rest, hn, by simp [taken, hn]⟩)))
  · rename_i rest hn
    cases h
    exact .inr (.inr (.inr (.inr ⟨rest, hn, by simp [taken, hn]⟩)))

end Sys2Proof.Machine
end

