-- ==== Sys2Proof/Laws/PerInstr.lean ====
section
/-! SUPPORT. Families of statements about every instruction as syntax, one lemma per constructor. -/

namespace Sys2Proof.Laws.RowMatch

/-- The row of opcode_table.json an instruction belongs to: its format's word masked with the row's `mask`
(30_encoding.md R106, R109, R111, R116) and the row's `match`. A BUS row's mask is over `sel` alone. -/
def rowBits : InstrWord → Instr → Nat × Nat
  | .bus w, .rdReg _ => ((busSel w).toNat, 0x0)
  | .bus w, .wrReg _ _ => ((busSel w).toNat, 0x1)
  | .bus w, .rdTraj _ => ((busSel w).toNat, 0x2)
  | .bus w, .wrTraj _ _ => ((busSel w).toNat, 0x3)
  | .bus w, .rdTs _ => ((busSel w).toNat, 0x4)
  | .cmd w, .ckinit _ => ((w &&& 0xFFFE).toNat, 0x0100)
  | .cmd w, .ckbyte _ => ((w &&& 0xFF00).toNat, 0x0200)
  | .cmd w, .ckbuf _ _ _ => ((w &&& 0xFF30).toNat, 0x0300)
  | .cmd w, .enc => ((w &&& 0xFFFF).toNat, 0x1000)
  | .cmd w, .dec => ((w &&& 0xFFFF).toNat, 0x1100)
  | .cmd w, .start => ((w &&& 0xFFFF).toNat, 0x2000)
  | .phase w, .phIdle => ((w &&& 0xF).toNat, 0x0)
  | .phase w, .phCheck => ((w &&& 0xF).toNat, 0x1)
  | .phase w, .phWait => ((w &&& 0xF).toNat, 0x2)
  | .phase w, .phPre => ((w &&& 0xF).toNat, 0x3)
  | .phase w, .phEnc => ((w &&& 0xF).toNat, 0x4)
  | .phase w, .phXreq => ((w &&& 0xF).toNat, 0x5)
  | .phase w, .phXwait => ((w &&& 0xF).toNat, 0x6)
  | .phase w, .phDec => ((w &&& 0xF).toNat, 0x7)
  | .phase w, .phPost => ((w &&& 0xF).toNat, 0x8)
  | .phase w, .phAppend => ((w &&& 0xF).toNat, 0x9)
  | .phase w, .phDone => ((w &&& 0xF).toNat, 0xA)
  | _, _ => (0, 1)

/-- The instruction's word is in its row's format and has the row's bits. -/
def Statement (i : Instr) : Prop := (rowBits (encode i) i).1 = (rowBits (encode i) i).2

theorem rdReg (r : Reg) : Statement (.rdReg r) := by
  simp [Statement, encode, rowBits, busSel_busWord]

theorem wrReg (r : Reg) (wdata : DWord) : Statement (.wrReg r wdata) := by
  simp [Statement, encode, rowBits, busSel_busWord]

theorem rdTraj (idx : Word) : Statement (.rdTraj idx) := by
  simp [Statement, encode, rowBits, busSel_busWord]

theorem wrTraj (idx : Word) (wdata : DWord) : Statement (.wrTraj idx wdata) := by
  simp [Statement, encode, rowBits, busSel_busWord]

theorem rdTs (idx : Word) : Statement (.rdTs idx) := by
  simp [Statement, encode, rowBits, busSel_busWord]

theorem ckinit (var : Variant) : Statement (.ckinit var) := by
  cases var <;> rfl

theorem ckbyte (b : Byte) : Statement (.ckbyte b) := by
  show ((encodeCommand (.ckbyte b)) &&& 0xFF00).toNat = 0x0200
  revert b
  decide

theorem ckbuf (var : Variant) (buf : BufSel) (n : BitVec 4) : Statement (.ckbuf var buf n) := by
  show ((encodeCommand (.ckbuf var buf n)) &&& 0xFF30).toNat = 0x0300
  cases var <;> cases buf <;> revert n <;> decide

theorem enc : Statement .enc := rfl

theorem dec : Statement .dec := rfl

theorem start : Statement .start := rfl

theorem phIdle : Statement .phIdle := rfl

theorem phCheck : Statement .phCheck := rfl

theorem phWait : Statement .phWait := rfl

theorem phPre : Statement .phPre := rfl

theorem phEnc : Statement .phEnc := rfl

theorem phXreq : Statement .phXreq := rfl

theorem phXwait : Statement .phXwait := rfl

theorem phDec : Statement .phDec := rfl

theorem phPost : Statement .phPost := rfl

theorem phAppend : Statement .phAppend := rfl

theorem phDone : Statement .phDone := rfl

end Sys2Proof.Laws.RowMatch
end

