-- ==== Sys2Proof/Tests/Slice0.lean ====
section
/-! SUPPORT. Tests. Expected values come from the spec: words from the encodings of 30_encoding.md, results from
95_test_vectors.md (the section is named at each group), never from the model. The last part shows, for every
statement with hypotheses, concrete states and operands that meet them. -/

namespace Sys2Proof.Tests

open Sys2Proof Sys2Proof.Machine

/-! ### Well-formedness -/

theorem test_wellformed_refuses_ckbuf_15 : (Instr.ckbuf .crc16 .tx 15).wellFormed = false := by decide

theorem test_wellformed_accepts_ckbuf_14 : (Instr.ckbuf .add8 .rx 14).wellFormed = true := by decide

/-! ### Words written out from the encodings (R105, R106, R109 to R111) -/

theorem test_decode_rdReg : decode (.bus 0x0_00000019_0000000000000000) = .ok (.rdReg .cksum) := by decide
theorem test_decode_wrReg : decode (.bus 0x1_00000005_FEDCBA9876543210) =
    .ok (.wrReg .duration 0xFEDCBA9876543210) := by decide
theorem test_decode_rdTraj : decode (.bus 0x2_80000001_0000000000000000) = .ok (.rdTraj 0x80000001) := by
  decide
theorem test_decode_wrTraj : decode (.bus 0x3_00000001_0000000040200000) =
    .ok (.wrTraj 1 0x40200000) := by decide
theorem test_decode_rdTs : decode (.bus 0x4_00000005_0000000000000000) = .ok (.rdTs 5) := by decide
theorem test_decode_ckinit : decode (.cmd 0x0101) = .ok (.ckinit .add8) := by decide
theorem test_decode_ckbyte : decode (.cmd 0x0280) = .ok (.ckbyte 0x80) := by decide
theorem test_decode_ckbuf_rx : decode (.cmd 0x034C) = .ok (.ckbuf .crc16 .rx 12) := by decide
theorem test_decode_ckbuf_add8 : decode (.cmd 0x0384) = .ok (.ckbuf .add8 .tx 4) := by decide
theorem test_decode_enc : decode (.cmd 0x1000) = .ok .enc := by decide
theorem test_decode_dec : decode (.cmd 0x1100) = .ok .dec := by decide
theorem test_decode_start : decode (.cmd 0x2000) = .ok .start := by decide
theorem test_decode_phIdle : decode (.phase 0) = .ok .phIdle := by decide
theorem test_decode_phCheck : decode (.phase 1) = .ok .phCheck := by decide
theorem test_decode_phWait : decode (.phase 2) = .ok .phWait := by decide
theorem test_decode_phPre : decode (.phase 3) = .ok .phPre := by decide
theorem test_decode_phEnc : decode (.phase 4) = .ok .phEnc := by decide
theorem test_decode_phXreq : decode (.phase 5) = .ok .phXreq := by decide
theorem test_decode_phXwait : decode (.phase 6) = .ok .phXwait := by decide
theorem test_decode_phDec : decode (.phase 7) = .ok .phDec := by decide
theorem test_decode_phPost : decode (.phase 8) = .ok .phPost := by decide
theorem test_decode_phAppend : decode (.phase 9) = .ok .phAppend := by decide
theorem test_decode_phDone : decode (.phase 10) = .ok .phDone := by decide

/-- 95_test_vectors.md 2.6: the illegal command words. -/
theorem test_illegal_commands :
    ([0x0000, 0x0102, 0x0180, 0x030F, 0x03CF, 0x0310, 0x0320, 0x0400, 0x0F00, 0x1200, 0x2100, 0xFFFF,
      0x1001, 0x1101, 0x2001] : List (BitVec 16)).all
      (fun w => match decodeCommand w with | .ok _ => false | .rejected _ => true) = true := by decide

/-- 95_test_vectors.md 2.7: addresses that hold nothing. -/
theorem test_unmapped :
    ([0x0E, 0x0F, 0x1A, 0x3F, 0x4E, 0x4F, 0x5E, 0xFF, 0x100, 0x40000001] : List Word).all
      (fun a => (Reg.ofAddr a).isNone) = true := by decide

/-- The rows of opcode_table.json whose words are not shared by two rows (log 3). -/
theorem test_table_words :
    decodeTableWord 8 1 = some (.wrReg .cmd 0) ∧ decodeTableWord 8 4 = some (.rdTs 0) ∧
    decodeTableWord 8 5 = some .phXreq ∧ decodeTableWord 8 10 = some .phDone ∧
    decodeTableWord 8 11 = none ∧ decodeTableWord 8 16 = none ∧
    decodeTableWord 16 0x0300 = some (.ckbuf .crc16 .tx 0) ∧ decodeTableWord 16 0x2000 = some .start := by
  decide

/-- A placed command runs at the next step: ENC sets CK_VAR, CKINIT ADD8 too. -/
theorem test_placed_command : (match step (State.reset.withFetchWord 16 0x0101) with
    | .next t => decide (t.ckVar = .add8 ∧ t.inputs = []) | _ => false) = true := by decide

/-- A placed phase runs at the next step. -/
theorem test_placed_phase : (match step (State.reset.withFetchWord 8 5) with
    | .next t => decide (t.phase = .xwait ∧ t.runState = .running) | _ => false) = true := by decide

/-! ### The checksum engine and the codec (95_test_vectors.md 2.1 to 2.5) -/

def crcT1 : CrcParams := { poly := 0x1021, seed := 0xFFFF, xorOut := 0 }
def crcT2 : CrcParams := { poly := 0x1021, seed := 0, xorOut := 0 }
def crcT3 : CrcParams := { poly := 0x8005, seed := 0, xorOut := 0 }
def crcT4 : CrcParams := { poly := 0x1021, seed := 0xFFFF, xorOut := 0xFFFF }

def digits : List Byte := [0x31, 0x32, 0x33, 0x34, 0x35, 0x36, 0x37, 0x38, 0x39]

theorem test_crc_digits : [crcT1, crcT2, crcT3, crcT4].map (fun p => crc16 p digits) =
    [0x29B1, 0x31C3, 0xFEE8, 0xD64E] := by decide +kernel

/-- The nine values of the accumulator in the second trace. -/
theorem test_crc_trace : (List.range 9).map (fun n => crcShift crcT1 n (0xFFFF ^^^ 0x4100)) =
    [0xBEFF, 0x6DDF, 0xDBBE, 0xA75D, 0x5E9B, 0xBD36, 0x6A4D, 0xD49A, 0xB915] := by decide +kernel

theorem test_crc_T3_80 : crcAcc crcT3 [0x80] = 0x8303 := by decide +kernel

theorem test_add8 : add8 [0xFF, 0x01] = 0 ∧ add8 [0xFF, 0xFF] = 0x00FE ∧ add8 digits = 0x00DD ∧
    add8 [0x23, 0x30, 0x31, 0x52, 0x44, 0x0D] = 0x0027 := by decide +kernel

/-- The first row of 2.4, `T1`: byte order and checksum. -/
theorem test_frame : (frame crcT1 0x10 0x02 0x00 0x00 0x01020304 0xA1B2C3D4).toList =
    [0x10, 0x02, 0x00, 0x00, 0x01, 0x02, 0x03, 0x04, 0xA1, 0xB2, 0xC3, 0xD4, 0xB7, 0x6F] := by decide +kernel

/-- The second row of 2.4, `T4`: the mask enters the checksum field. -/
theorem test_frame_T4 : (frame crcT4 0xAA 0x55 0xF0 0x0F 0x7FC12345 0x80000000).toList.drop 12 =
    [0x2A, 0x17] := by decide +kernel

/-- The `T1` scenario frame of 1.1. -/
def scenario : Frame :=
  ⟨#[0x10, 0x02, 0x00, 0x00, 0x41, 0x8C, 0x00, 0x00, 0x41, 0x8C, 0x00, 0x00, 0x0D, 0x98], rfl⟩

def withFrame : State := { State.reset with txbuf := scenario, rxbuf := scenario.set 5 0x8D }

/-- The table of 2.5. -/
theorem test_ckbuf : [(Variant.crc16, (0 : BitVec 4)), (.crc16, 1), (.crc16, 4), (.crc16, 12), (.crc16, 14),
    (.add8, 1), (.add8, 12), (.add8, 14)].map (fun c => (ckBuf crcT1 c.1 .tx c.2 withFrame).acc) =
    [0xFFFF, 0xF3C1, 0xF107, 0x0D98, 0x0000, 0x0010, 0x00AC, 0x0051] := by decide +kernel

/-- The corrupt frame of 2.5 in RXBUF, under `T4` through the view CKSUM. -/
theorem test_ckbuf_rx : readReg { crc := crcT4, trajCap := 16, tsCap := 16, axisMap := .ab } .cksum
    (ckBuf crcT4 .crc16 .rx 12 withFrame) = 0x4A06 := by decide +kernel

/-- The fourth row of the DEC table of 2.4: a wrong checksum is decoded. -/
theorem test_dec : (decodeFrame withFrame).decA = 0x418D0000 ∧ (decodeFrame withFrame).decB = 0x418C0000 := by
  decide

/-- The pseudo-instruction CKSTR of R115 on the bytes "PR1", and VERIFYRX's first word. -/
theorem test_assembler : (asmCkstr .add8 [0x50, 0x52, 0x31]).map encode =
      [.cmd 0x0101, .cmd 0x0250, .cmd 0x0252, .cmd 0x0231] ∧
    asmVerifyrx.head?.map encode = some (.cmd 0x034C) ∧ asmWaitdoneStops 0x02A = true ∧
    asmWaitdoneStops 0x019 = false := by decide

/-! ### Host access and START (95_test_vectors.md 2.7, 2.8) -/

/-- `T1` with the capacities of the vectors. -/
def t1 : Params := { crc := crcT1, trajCap := 16, tsCap := 16, axisMap := .ab }

theorem test_write_masks : (writeReg .hdr0 0x1FF State.reset).hdr0 = 0xFF ∧
    (writeReg .cfg 0xFFFFFFFF State.reset).cfg = 3 ∧
    (writeReg .period 0x100000005 State.reset).period = 5 := by decide

theorem test_write_traj : trajRead t1 15 (writeTrajectory t1 15 0xFFFFFFFF12345678 State.reset) =
      some 0x12345678 ∧
    (writeTrajectory t1 16 0 State.reset).answer = some { status := .err, rdata := 0 } := by decide

/-- The rows of 2.8 as (CFG, PERIOD, COUNT, DURATION, TRAJ_LEN). -/
def configured (cfg period count : Word) (duration : DWord) (trajLen : Word) : State :=
  { State.reset with cfg, period, count, duration, trajLen }

theorem test_start_valid : [configured 0 1000 4 0 4, configured 2 1000 8 0 16, configured 1 100 0 400 4,
    configured 3 100 0 800 16, configured 0 1 0 0 0, configured 1 1 0 0 0].map
    (fun s => statusWord (startCommand t1 s)) = List.replicate 6 0x005 := by decide

theorem test_start_invalid : [configured 0 0 0 0 0, configured 0 1000 5 0 4, configured 0 1000 0 0 17,
    configured 2 1000 9 0 16, configured 1 100 0 401 4, configured 3 100 0 801 16].map
    (fun s => statusWord (startCommand t1 s)) = List.replicate 6 0x040 := by decide

/-! ### Single phase steps (95_test_vectors.md 2.9) -/

theorem test_check_deadline : (checkStep { configured 0 1000 5 0 0 with iter := 3 }).deadline = 3000 := by
  decide

theorem test_check_wide : (checkStep { configured 0 0xFFFFFFFF 0 0 0 with iter := 0xFFFFFFFE }).deadline =
    0xFFFFFFFD00000002 := by decide

def waiting (cfg : Word) (duration : DWord) : State :=
  { State.reset with cfg, duration, tStart := 5000, deadline := 3000, phase := .wait, runState := .running }

theorem test_wait_by_count : (pollStep 7999 (waiting 0 1)).phase = .wait ∧
    (pollStep 8000 (waiting 0 1)).phase = .pre := by decide

theorem test_wait_by_duration : (pollStep 8000 (waiting 1 3000)).phase = .done ∧
    (pollStep 8000 (waiting 1 3001)).phase = .pre ∧ (pollStep 7400 (waiting 1 2500)).phase = .wait ∧
    (pollStep 7500 (waiting 1 2500)).phase = .done := by decide

/-- The strobe takes the next answer of the clock, and no answer goes back (R84). -/
theorem test_now : nowValue { State.reset with clockScript := [8003] } = 8003 ∧
    nowValue { State.reset with clockScript := [8003], clkLast := 8050 } = 8050 := by decide

/-- The row `AXIS_MAP = A`. -/
theorem test_enc_axis_a : (encStep { t1 with axisMap := .a }
    { State.reset with hdr0 := 0x10, hdr1 := 0x02, hdr2 := 0x03, valB := 0x40500000,
                       traj := [(0, 0x42C80000)] }).map
      (fun t => (t.valA, t.valB, t.txbuf.toList.drop 12)) =
    some (0x42C80000, 0x40500000, [0x0E, 0x49]) := by decide +kernel

/-- The row `AXIS_MAP = B`. -/
theorem test_enc_axis_b : (encStep { t1 with axisMap := .b }
    { State.reset with hdr0 := 0x10, hdr1 := 0x02, hdr2 := 0x03, valA := 0x40500000,
                       traj := [(0, 0x42C80000)] }).map
      (fun t => (t.valA, t.valB, t.txbuf.toList.drop 12)) =
    some (0x40500000, 0x42C80000, [0xB2, 0x30]) := by decide +kernel

/-- The XWAIT rows: only OK with exactly 14 bytes is a success. -/
theorem test_success : [(XferStatus.ok, (14 : BitVec 4)), (.ok, 9), (.err, 14), (.ok, 15), (.ok, 0)].map
    (fun c => XferAnswer.success { status := c.1, count := c.2, data := scenario }) =
    [true, false, false, false, false] := by decide

/-- The abort of `ITER = 1`. -/
theorem test_abort : statusWord (answerStep { status := .ok, count := 9, data := scenario }
      { State.reset with iter := 1, phase := .xwait, runState := .running }) = 0x0EA ∧
    (answerStep { status := .ok, count := 9, data := scenario }
      { State.reset with iter := 1, phase := .xwait, runState := .running }).errInfo = 1 := by decide

/-- The APPEND row with two stamps. -/
theorem test_append_two : (appendStep t1 { State.reset with
      cfg := 2, tsLen := 4, iter := 2, tPre := 8003, tPost := 8050 }).map
      (fun t => (t.ts, t.tsLen, t.iter)) = some ([(4, 8003), (5, 8050)], 6, 3) := by decide

/-- The APPEND row with one stamp. -/
theorem test_append_one : (appendStep t1 { State.reset with
      tsLen := 2, iter := 2, tPre := 8003, tPost := 8050 }).map
      (fun t => (t.ts, t.tsLen, t.iter)) = some ([(2, 8003)], 3, 3) := by decide

/-! ### Witnesses: states and operands that meet the hypotheses of each statement

`setUp cfg` is a configuration of one iteration (COUNT 1, DURATION 1, PERIOD 1, TRAJ_LEN 1), valid for every
capacity; `runningIn p` is its run in phase `p` of iteration 0; `ended cfg` the same run finished. -/

def setUp (cfg : Word) : State := configured cfg 1 1 1 1

def runningIn (p : Phase) : State :=
  { setUp 0 with
    runState := phaseRunState p
    phase := p
    deadline := 0
    xferCount := 1
    pending := if p = .xwait then some { serial := 0, out := zeroFrame, answer := none } else none }

def ended (cfg : Word) : State :=
  { setUp cfg with runState := .finished, phase := .done, iter := 1, tsLen := 1 }

/-- A host transaction is the oldest input. -/
def asked (w : BitVec 99) (s : State) : State := { s with inputs := [.host w] }

/-- START as a host transaction. -/
def startWord : BitVec 99 := 0x1_00000000_0000000000002000

theorem setUp_valid : cfgValid Config.params (setUp 0) = true ∧ cfgValid Config.params (setUp 1) = true := by
  have h1 := Config.trajCap_pos
  have h2 := Config.tsCap_pos
  have h3 : 1 ≤ Config.tsCap / 1 * 1 := by omega
  constructor
  · have e : cfgValid Config.params (setUp 0) = (decide (1 ≤ Config.trajCap) && decide (1 ≤ Config.tsCap)) := rfl
    rw [e, decide_eq_true (show 1 ≤ Config.trajCap from h1), decide_eq_true (show 1 ≤ Config.tsCap from h2)]
    rfl
  · have e : cfgValid Config.params (setUp 1) =
        (decide (1 ≤ Config.trajCap) && decide (1 ≤ Config.tsCap / 1 * 1)) := rfl
    rw [e, decide_eq_true (show 1 ≤ Config.trajCap from h1), decide_eq_true h3]
    rfl

theorem runningIn_inv (p : Phase) (h : phaseRunState p = .running) : Inv (runningIn p) where
  phase_state := rfl
  series := rfl
  series_cap := Nat.zero_le _
  idle_iter _ := rfl
  valid _ := setUp_valid.1
  index _ := ⟨Nat.zero_le _, Config.trajCap_pos⟩
  in_iteration _ := by
    refine ⟨Nat.zero_lt_one, ?_⟩
    rw [stampsPerIter_eq, show (runningIn p).cfg = 0 from rfl, show (runningIn p).iter = 0 from rfl]
    exact Config.tsCap_pos
  by_count _ _ := ⟨Nat.zero_le _, fun _ => Nat.zero_lt_one⟩
  by_duration _ hb := by
    rw [byDuration_iff] at hb
    exact absurd hb (show ¬ (0 : Word).toNat % 2 = 1 by decide)
  deadline_eq _ := rfl
  completed hf := by
    have hf' : phaseRunState p = .finished := hf
    rw [h] at hf'
    cases hf'
  error := .inl rfl
  transfer := by
    show (if p = .xwait then some _ else none : Option Transfer).isSome = true ↔ p = .xwait
    by_cases hp : p = .xwait <;> simp [hp]
  request x hx := by
    have hx' : (if p = .xwait then some { serial := 0, out := zeroFrame, answer := none } else none :
        Option Transfer) = some x := hx
    by_cases hp : p = .xwait
    · rw [if_pos hp] at hx'
      cases hx'
      exact ⟨rfl, Nat.zero_lt_one⟩
    · rw [if_neg hp] at hx'
      cases hx'
  cfg_reserved := show (0 : Word).toNat < 4 by decide
  add8_high hv := by cases hv
  traj_wf := rfl
  traj_within := rfl
  ts_wf := rfl
  ts_within := rfl

theorem runningIn_time (p : Phase) : TimeInv (runningIn p) :=
  ⟨fun _ => BitVec.le_refl _, fun _ h => absurd h (Nat.not_lt_zero _),
    fun _ _ _ h => absurd h (Nat.not_lt_zero _), fun _ => Nat.le_refl _, fun _ => Nat.le_refl _,
    fun _ => BitVec.le_refl _, fun _ _ h => absurd h (Nat.not_lt_zero _),
    fun _ => ⟨BitVec.le_refl _, BitVec.le_refl _⟩, fun _ h => absurd h (Nat.not_lt_zero _)⟩

theorem ended_inv (cfg : Word) (h : cfg = 0 ∨ cfg = 1) : Inv (ended cfg) where
  phase_state := rfl
  series := by rcases h with rfl | rfl <;> rfl
  series_cap := Config.tsCap_pos
  idle_iter hi := by cases hi
  valid _ := by
    rcases h with rfl | rfl
    · exact setUp_valid.1
    · exact setUp_valid.2
  index _ := ⟨Nat.le_refl 1, Config.trajCap_pos⟩
  in_iteration hp := by cases hp
  by_count _ _ := ⟨Nat.le_refl 1, fun hp => by cases hp⟩
  by_duration _ _ := ⟨fun hp => (by cases hp), .inr (show 0 * 1 < 1 by decide)⟩
  deadline_eq hp := by cases hp
  completed _ _ _ := rfl
  error := .inl rfl
  transfer := by constructor <;> intro hp <;> cases hp
  request _ hx := by cases hx
  cfg_reserved := by rcases h with rfl | rfl <;> decide
  add8_high hv := by cases hv
  traj_wf := rfl
  traj_within := rfl
  ts_wf := rfl
  ts_within := rfl

/-- R48 (d) at both errors: a refused configuration, an aborted run. -/
def misconfigured : State := { State.reset with errCode := 1 }

def aborted : State := { ended 0 with errCode := 3, errInfo := 1 }

theorem misconfigured_inv : Inv misconfigured where
  phase_state := rfl
  series := rfl
  series_cap := Nat.zero_le _
  idle_iter _ := rfl
  valid hi := absurd rfl hi
  index hi := absurd rfl hi
  in_iteration hp := by cases hp
  by_count hi := absurd rfl hi
  by_duration hi := absurd rfl hi
  deadline_eq hp := by cases hp
  completed hf := by cases hf
  error := .inr (.inl ⟨rfl, rfl⟩)
  transfer := by constructor <;> intro hp <;> cases hp
  request _ hx := by cases hx
  cfg_reserved := by decide
  add8_high hv := by cases hv
  traj_wf := rfl
  traj_within := rfl
  ts_wf := rfl
  ts_within := rfl

theorem aborted_inv : Inv aborted :=
  have h := ended_inv 0 (.inl rfl)
  { h with
    completed := fun _ _ _ => rfl
    error := .inr (.inr ⟨rfl, rfl⟩) }

theorem append_next : step (runningIn .append) = .next (appended (runningIn .append)) := by
  have h : appendStep Config.params (runningIn .append) = some (appended (runningIn .append)) := by
    refine appendStep_eq_some.mpr ⟨?_, rfl⟩
    rw [stampsPerIter_eq]
    show 1 ≤ Config.tsCap
    exact Config.tsCap_pos
  show execPhAppend (runningIn .append) = _
  simp only [execPhAppend, h]

/-! One theorem per statement with hypotheses, in the order of Obligations.lean. -/

theorem witness_DecodeEncodeGivesInstructionBack : (Instr.ckbuf .add8 .rx 14).wellFormed = true := by decide

theorem witness_EncodeDecodeGivesWordBack :
    decode (.cmd 0x03CE) = .ok (.ckbuf .add8 .rx 14) ∧ decode (.phase 10) = .ok .phDone ∧
    decode (.bus 0x4_FFFFFFFF_FFFFFFFFFFFFFFFF) = .ok (.rdTs 0xFFFFFFFF) ∧
    decode (.bus 0x1_0000005D_FFFFFFFFFFFFFFFF) = .ok (.wrReg (.rxbuf 13) 0xFFFFFFFFFFFFFFFF) := by decide

/-- CKBUF with every operand bit set, and its longest length. -/
theorem witness_CommandDecodesByMatchAndMask :
    (0x03CE : BitVec 16) &&& 0xFF30 = 0x0300 ∧ (0x03CE : BitVec 16).getLsbD 7 = true ∧
    (0x03CE : BitVec 16).getLsbD 6 = true ∧ (0x03CE : BitVec 16).toNat % 16 = 14 ∧
    decodeCommand 0x03CE = .ok (.ckbuf .add8 .rx 14) ∧ decodeCommand 0x0300 = .ok (.ckbuf .crc16 .tx 0) := by
  decide

theorem witness_StepRunsTheDecodedInstruction :
    (asked startWord State.reset).inputs = [.host startWord] ∧
    decode (.bus startWord) = .ok (.wrReg .cmd 0x2000) ∧
    decode (.bus 0x5_00000000_0000000000000000) = .rejected .illegalSelector ∧
    decode (.phase State.reset.phase.code) = .ok .phIdle ∧ State.reset.inputs = [] ∧
    ({ State.reset with inputs := [.seq] } : State).inputs = [.seq] := by decide

theorem witness_CommandPortRunsTheCommand :
    State.reset.runState ≠ .running ∧
    decodeCommand ((0xABCD00000100 : DWord).setWidth 16) = .ok (.ckinit .crc16) ∧
    decodeCommand ((0x2001 : DWord).setWidth 16) = .rejected .reservedArgument ∧
    (runningIn .check).runState = .running := by decide

theorem witness_HostAnswersOkExactlyWhenAllowed :
    isHost (.rdReg .status) = true ∧ isHost .start = true := by decide

theorem witness_RegisterWriteStoresLowBits :
    Reg.period ≠ .cmd ∧ hostAllowed (.wrReg .period 0xFFFFFFFFFFFFFFFF) State.reset ∧
    Reg.rxbuf 13 ≠ .cmd ∧ hostAllowed (.wrReg (.rxbuf 13) 0x1FF) (ended 0) :=
  ⟨by decide, rfl, by decide, show (ended 0).runState ≠ .running by decide⟩

/-- The last entry of TRAJ and the first index above it. -/
theorem trajCap_edges : (BitVec.ofNat 32 (Config.trajCap - 1)).toNat < Config.trajCap ∧
    Config.trajCap ≤ (BitVec.ofNat 32 Config.trajCap).toNat := by
  have h1 := Config.trajCap_pos
  have h2 := Config.trajCap_lt
  constructor
  · rw [BitVec.toNat_ofNat, Nat.mod_eq_of_lt (by omega)]; omega
  · rw [BitVec.toNat_ofNat, Nat.mod_eq_of_lt h2]

theorem witness_TrajectoryReadAnswersEntry : ∃ i j : Word,
    i.toNat < Config.trajCap ∧ Config.trajCap ≤ j.toNat :=
  ⟨_, _, trajCap_edges⟩

theorem witness_TrajectoryWriteStoresOneEntry : State.reset.traj.wf = true ∧ (ended 0).traj.wf = true ∧
    State.reset.runState = .idle ∧ (ended 0).runState ≠ .idle ∧
    ∃ i j : Word, i.toNat < Config.trajCap ∧ Config.trajCap ≤ j.toNat :=
  ⟨rfl, rfl, rfl, by decide, _, _, trajCap_edges⟩

theorem witness_SeriesReadAnswersEntry :
    (ended 0).runState ≠ .running ∧ (0 : Word).toNat < (ended 0).tsLen.toNat ∧
    (ended 0).tsLen.toNat ≤ (1 : Word).toNat ∧ (runningIn .check).runState = .running ∧
    (busSel 0x5_00000000_0000000000000000).toNat = 5 := by decide

theorem witness_HostCannotDisturbARun : isHost (.rdReg .iter) = true ∧
    (runningIn .xwait).runState = .running ∧
    exec (.rdReg .iter) (runningIn .xwait) =
      .next (answerOk (readReg Config.params .iter (runningIn .xwait)) (runningIn .xwait)) ∧
    (answerOk 0 (runningIn .xwait)).answer = some { status := .ok, rdata := 0 } :=
  ⟨rfl, rfl, rfl, rfl⟩

theorem witness_MemoryReadsTheLatestWrite :
    Mem.wf ([(0, 5), (7, 1)] : Mem 32) = true ∧ Mem.wf ([] : Mem 32) = true := by decide

theorem witness_CrcByteIsEightShiftSteps :
    2 ^ 15 ≤ (0x8000 : Half).toNat ∧ (0x7FFF : Half).toNat < 2 ^ 15 := by decide

theorem witness_CkinitStartsAStream :
    State.reset.runState ≠ .running ∧ (ended 0).runState ≠ .running ∧
    (runningIn .check).runState = .running := by decide

theorem witness_CkbyteAbsorbsOneByte : State.reset.runState ≠ .running ∧ State.reset.ckVar = .crc16 ∧
    ({ State.reset with ckVar := .add8 } : State).ckVar = .add8 ∧
    (runningIn .check).runState = .running := by decide

theorem witness_CkbufEqualsStreaming : State.reset.runState ≠ .running ∧ (14 : BitVec 4).toNat ≤ 14 ∧
    14 < (15 : BitVec 4).toNat ∧ (runningIn .check).runState = .running := by decide

theorem witness_CrcOfZerosAndOfOne : crcT2.seed = 0 := by decide

theorem witness_CrcResidue : crcT1.xorOut = 0 := by decide

theorem witness_OddPolynomialDetectsOneByte : crcT1.poly.getLsbD 0 = true ∧ (0x00 : Byte) ≠ 0xFF := by decide

theorem witness_CrcIsAffine : ([0x31, 0x32] : List Byte).length = ([0xFF, 0x00] : List Byte).length := by
  decide

theorem witness_Add8SumsModulo256 : ([0xFF, 0x01] : List Byte).Perm [0x01, 0xFF] := by decide

theorem witness_EncWritesTheFrame :
    State.reset.runState ≠ .running ∧ (ended 0).runState ≠ .running ∧
    (runningIn .check).runState = .running := by decide

theorem witness_DecReadsTheValues :
    State.reset.runState ≠ .running ∧ (ended 0).runState ≠ .running ∧
    (runningIn .check).runState = .running := by decide

theorem witness_CodecRoundTrip : withFrame.runState ≠ .running := by decide

theorem witness_HostValidationOfAFrame : ∃ s : State, s.runState ≠ .running ∧
    s.rxbuf = frame Config.params.crc 0x10 0x02 0x00 0x03 0x418C0000 0xFFFFFFFF :=
  ⟨{ State.reset with rxbuf := frame Config.params.crc 0x10 0x02 0x00 0x03 0x418C0000 0xFFFFFFFF },
    by decide, rfl⟩

theorem witness_ConfigurationValidity : (setUp 0).cfg.toNat % 2 = 0 ∧ (setUp 1).cfg.toNat % 2 = 1 := by decide

theorem witness_StartBeginsTheRun : (setUp 0).runState = .idle ∧ (setUp 0).errCode = 0 ∧
    cfgValid Config.params (setUp 0) = true :=
  ⟨rfl, rfl, setUp_valid.1⟩

theorem witness_StartWithInvalidConfiguration : State.reset.runState = .idle ∧ State.reset.errCode = 0 ∧
    cfgValid Config.params State.reset = false := ⟨rfl, rfl, rfl⟩

theorem witness_StartRefused : (ended 0).runState ≠ .idle ∧ misconfigured.errCode ≠ 0 := by decide

theorem witness_IdleAndDoneHaveNoStep :
    State.reset.runState = phaseRunState State.reset.phase ∧ step State.reset = .next State.reset ∧
    (∀ rest, State.reset.inputs ≠ .reset :: rest) ∧ State.reset.phase = .idle ∧
    (ended 0).runState = phaseRunState (ended 0).phase ∧ step (ended 0) = .next (ended 0) ∧
    (∀ rest, (ended 0).inputs ≠ .reset :: rest) ∧ (ended 0).phase = .done :=
  ⟨rfl, rfl, nofun, rfl, rfl, rfl, nofun, rfl⟩

theorem witness_CheckSetsTheDeadlineOrEnds :
    (configured 0 1 0 0 0).cfg.getLsbD 0 = false ∧
    (configured 0 1 0 0 0).iter = (configured 0 1 0 0 0).count ∧
    (setUp 1).cfg.getLsbD 0 = true ∧ (setUp 0).iter ≠ (setUp 0).count := by decide

/-- The clock answers 8000 at the poll and 8003 at the strobe. -/
def polled : State := { waiting 0 0 with clkLast := 5000, clockScript := [8000, 8003] }

theorem witness_WaitPollsTheClock : (2 ^ 64 - polled.tStart.toNat + 8000) % 2 ^ 64 = 3000 ∧
    polled.deadline.toNat ≤ 3000 ∧ (waiting 1 3000).duration.toNat ≤ 3000 ∧ 2999 < polled.deadline.toNat := by
  decide

theorem witness_PreStrobesAfterTheDeadline : polled.tStart ≤ polled.clkLast ∧
    ∃ t u, exec .phWait polled = .next t ∧ t.phase = .pre ∧ exec .phPre t = .next u ∧ u.tPre = 8003 :=
  ⟨by decide, _, _, rfl, by decide, rfl, by decide⟩

theorem witness_EncPhaseEncodesTheSample : ∃ s t : State,
    s.iter = 0 ∧ s.iter.toNat < Config.trajCap ∧ t.iter.toNat = Config.trajCap - 1 ∧
    t.iter.toNat < Config.trajCap := by
  have h1 := Config.trajCap_pos
  have h2 := Config.trajCap_lt
  refine ⟨State.reset, { State.reset with iter := BitVec.ofNat 32 (Config.trajCap - 1) }, rfl, h1, ?_,
    trajCap_edges.1⟩
  show (BitVec.ofNat 32 (Config.trajCap - 1)).toNat = _
  rw [BitVec.toNat_ofNat, Nat.mod_eq_of_lt (by omega)]

/-- The pending transfer of `runningIn .xwait` with an answer. -/
def answeredBy (a : XferAnswer) : Transfer := { serial := 0, out := zeroFrame, answer := some a }

theorem witness_XwaitTakesASuccessfulAnswer :
    ({ runningIn .xwait with
        pending := some (answeredBy { status := .ok, count := 14, data := scenario }) } : State).pending =
      some (answeredBy { status := .ok, count := 14, data := scenario }) ∧
    (answeredBy { status := .ok, count := 14, data := scenario }).answer =
      some { status := .ok, count := 14, data := scenario } := ⟨rfl, rfl⟩

theorem witness_XwaitAbortsOnAFailedAnswer :
    [(XferStatus.err, (14 : BitVec 4)), (.ok, 13), (.ok, 15), (.ok, 0)].all (fun c =>
      let a : XferAnswer := { status := c.1, count := c.2, data := scenario }
      let s : State := { runningIn .xwait with pending := some (answeredBy a) }
      decide (s.pending = some (answeredBy a) ∧ (answeredBy a).answer = some a ∧
        (a.status = .err ∨ a.count.toNat ≠ 14))) = true := by decide

theorem witness_HoldIsLiftedOnlyByAnAnswer : (runningIn .xwait).phase = .xwait ∧
    (runningIn .xwait).runState = .running ∧
    (runningIn .xwait).pending = some { serial := 0, out := zeroFrame, answer := none } ∧
    step (runningIn .xwait) = .next (runningIn .xwait) ∧
    (∀ rest, (runningIn .xwait).inputs ≠ .reset :: rest) ∧
    (∀ a rest, (runningIn .xwait).inputs ≠ .transport 0 a :: rest) :=
  ⟨rfl, rfl, rfl, rfl, nofun, nofun⟩

theorem witness_LateAnswersAreDiscarded : ∃ a : XferAnswer, ∃ none_ other again open_ : State,
    none_.inputs = [.transport 0 a] ∧ none_.pending = none ∧
    other.inputs = [.transport 1 a] ∧ other.pending.map (·.serial) = some 0 ∧
    again.inputs = [.transport 0 a] ∧ again.pending.bind (·.answer) = some a ∧
    open_.inputs = [.transport 0 a] ∧
      open_.pending = some { serial := 0, out := zeroFrame, answer := none } :=
  ⟨{ status := .ok, count := 14, data := scenario },
    { State.reset with inputs := [.transport 0 { status := .ok, count := 14, data := scenario }] },
    { runningIn .xwait with inputs := [.transport 1 { status := .ok, count := 14, data := scenario }] },
    { runningIn .xwait with
      inputs := [.transport 0 { status := .ok, count := 14, data := scenario }]
      pending := some (answeredBy { status := .ok, count := 14, data := scenario }) },
    { runningIn .xwait with inputs := [.transport 0 { status := .ok, count := 14, data := scenario }] },
    rfl, rfl, rfl, rfl, rfl, rfl, rfl, rfl⟩

theorem witness_PostStrobes : (runningIn .post).tPre ≤ (runningIn .post).clkLast := by decide

/-- One stamp fills TS to its last entry, and is refused one entry later. -/
theorem tsCap_edges :
    (BitVec.ofNat 32 (Config.tsCap - 1)).toNat + 1 ≤ Config.tsCap ∧
    Config.tsCap < (BitVec.ofNat 32 Config.tsCap).toNat + 1 := by
  have h1 := Config.tsCap_pos
  have h2 := Config.tsCap_lt
  constructor
  · rw [BitVec.toNat_ofNat, Nat.mod_eq_of_lt (by omega)]; omega
  · rw [BitVec.toNat_ofNat, Nat.mod_eq_of_lt h2]; omega

/-- One stamp into the last entry, and two stamps into the last two wherever the open TS_CAP has two. -/
theorem witness_AppendStampsAndCounts :
    (∃ s : State, s.ts.wf = true ∧ s.cfg.toNat / 2 % 2 = 0 ∧
      s.tsLen.toNat + (1 + s.cfg.toNat / 2 % 2) ≤ Config.tsCap) ∧
    (2 ≤ Config.tsCap → ∃ s : State, s.ts.wf = true ∧ s.cfg.toNat / 2 % 2 = 1 ∧
      s.tsLen.toNat = Config.tsCap - 2 ∧ s.tsLen.toNat + (1 + s.cfg.toNat / 2 % 2) ≤ Config.tsCap) := by
  refine ⟨⟨{ State.reset with tsLen := BitVec.ofNat 32 (Config.tsCap - 1) }, rfl, rfl, tsCap_edges.1⟩,
    fun h => ?_⟩
  have e : (BitVec.ofNat 32 (Config.tsCap - 2)).toNat = Config.tsCap - 2 := by
    have := Config.tsCap_lt
    rw [BitVec.toNat_ofNat, Nat.mod_eq_of_lt (by omega)]
  refine ⟨{ State.reset with cfg := 2, tsLen := BitVec.ofNat 32 (Config.tsCap - 2) }, rfl, rfl, e, ?_⟩
  show (BitVec.ofNat 32 (Config.tsCap - 2)).toNat + 2 ≤ Config.tsCap
  omega

theorem witness_FaultsAreIndexFaults : ∃ s t : State, Config.trajCap ≤ s.iter.toNat ∧
    Config.tsCap < t.tsLen.toNat + (1 + t.cfg.toNat / 2 % 2) ∧
    exec .phEnc s = .fault .trajIndexOutOfRange := by
  refine ⟨{ State.reset with iter := BitVec.ofNat 32 Config.trajCap },
    { State.reset with tsLen := BitVec.ofNat 32 Config.tsCap }, trajCap_edges.2, tsCap_edges.2, ?_⟩
  have h : trajRead Config.params (BitVec.ofNat 32 Config.trajCap).toNat
      { State.reset with iter := BitVec.ofNat 32 Config.trajCap } = none :=
    if_neg (Nat.not_lt.mpr trajCap_edges.2)
  show execPhEnc _ = _
  simp only [execPhEnc, encStep, h]

theorem witness_PhaseGraph : exec (runningIn .xreq).phase.toInstr (runningIn .xreq) =
    .next (requestStep (runningIn .xreq)) := rfl

theorem start_next : step (asked startWord (setUp 0)) = .next (answerOk 0 (startRun (setUp 0))) := by
  have hd : decode (.bus startWord) = .ok (.wrReg .cmd 0x2000) := by decide
  have hc : decodeCommand ((0x2000 : DWord).setWidth 16) = .ok .start := by decide
  show hostTurn startWord (setUp 0) = _
  have hv := setUp_valid.1
  simp only [hostTurn, hd]
  rw [exec_wrReg_cmd _ (by decide), writeCommand, hc]
  show Host.Outcome.next (startCommand Config.params (setUp 0)) = _
  rw [startCommand, if_neg (by decide), if_neg (by decide), if_pos hv]

theorem witness_StateMachineHasTwoEdges :
    (asked startWord (setUp 0)).runState = phaseRunState (asked startWord (setUp 0)).phase ∧
    step (asked startWord (setUp 0)) = .next (answerOk 0 (startRun (setUp 0))) ∧
    (∀ rest, (asked startWord (setUp 0)).inputs ≠ .reset :: rest) ∧
    (polled.runState = phaseRunState polled.phase ∧ (∃ t, step polled = .next t) ∧
      ∀ rest, polled.inputs ≠ .reset :: rest) :=
  ⟨rfl, start_next, nofun, rfl, ⟨_, rfl⟩, nofun⟩

theorem witness_StepKeepsTheInvariant : Inv (runningIn .append) ∧
    step (runningIn .append) = .next (appended (runningIn .append)) :=
  ⟨runningIn_inv _ rfl, append_next⟩

theorem witness_InvariantStatesNeverStop :
    Inv (runningIn .enc) ∧ Inv (runningIn .append) ∧ Inv (runningIn .xwait) ∧ Inv (ended 1) :=
  ⟨runningIn_inv _ rfl, runningIn_inv _ rfl, runningIn_inv _ rfl, ended_inv 1 (.inr rfl)⟩

theorem witness_StepKeepsTheClockLaw : Inv (runningIn .append) ∧ TimeInv (runningIn .append) ∧
    step (runningIn .append) = .next (appended (runningIn .append)) :=
  ⟨runningIn_inv _ rfl, runningIn_time _, append_next⟩

theorem witness_ConfigurationIsFrozen : (ended 0).runState ≠ .idle ∧
    exec (.wrReg .period 5) (ended 0) = .next (raiseBusErr (ended 0)) := ⟨by decide, rfl⟩

/-- The run of `setUp 0` before the CHECK that ends it by count, and of `setUp 1` before the poll that ends it by
duration: the clock answers 1. -/
def lastCheck : State := { ended 0 with runState := .running, phase := .check }

def lastPoll : State :=
  { ended 1 with runState := .running, phase := .wait, deadline := 1, clockScript := [1] }

theorem lastCheck_inv : Inv lastCheck :=
  have h := ended_inv 0 (.inl rfl)
  { h with
    phase_state := rfl
    idle_iter := nofun
    valid := fun _ => setUp_valid.1
    index := fun _ => ⟨Nat.le_refl 1, Config.trajCap_pos⟩
    in_iteration := nofun
    by_count := fun _ _ => ⟨Nat.le_refl 1, nofun⟩
    by_duration := fun _ _ => ⟨nofun, .inr (show 0 * 1 < 1 by decide)⟩
    deadline_eq := nofun
    completed := nofun
    error := .inl rfl
    transfer := ⟨nofun, nofun⟩ }

theorem lastPoll_inv : Inv lastPoll :=
  have h := ended_inv 1 (.inr rfl)
  { h with
    phase_state := rfl
    idle_iter := nofun
    valid := fun _ => setUp_valid.2
    index := fun _ => ⟨Nat.le_refl 1, Config.trajCap_pos⟩
    in_iteration := nofun
    by_count := nofun
    by_duration := fun _ _ => ⟨nofun, .inr (show 0 * 1 < 1 by decide)⟩
    deadline_eq := fun _ => rfl
    completed := nofun
    error := .inl rfl
    transfer := ⟨nofun, nofun⟩ }

theorem witness_IterationsAreBounded :
    (Inv lastCheck ∧ lastCheck.runState = .running ∧ ∃ t, step lastCheck = .next t ∧
      t.runState = .finished ∧ t.errCode = 0 ∧ t.cfg.toNat % 2 = 0) ∧
    (Inv lastPoll ∧ lastPoll.runState = .running ∧ ∃ t, step lastPoll = .next t ∧
      t.runState = .finished ∧ t.errCode = 0 ∧ t.cfg.toNat % 2 = 1) :=
  ⟨⟨lastCheck_inv, rfl, _, rfl, by decide, by decide, by decide⟩,
    lastPoll_inv, rfl, _, rfl, by decide, by decide, by decide⟩

theorem witness_ErrorsAreTerminal :
    (Inv misconfigured ∧ misconfigured.errCode ≠ 0 ∧ step misconfigured = .next misconfigured ∧
      ∀ rest, misconfigured.inputs ≠ .reset :: rest) ∧
    (Inv aborted ∧ aborted.errCode ≠ 0 ∧ step aborted = .next aborted ∧
      ∀ rest, aborted.inputs ≠ .reset :: rest) :=
  ⟨⟨misconfigured_inv, by decide, rfl, nofun⟩, aborted_inv, by decide, rfl, nofun⟩

theorem witness_SeriesIsAppendOnly :
    (Inv (runningIn .append) ∧ step (runningIn .append) = .next (appended (runningIn .append)) ∧
      ∀ rest, (runningIn .append).inputs ≠ .reset :: rest) ∧
    (Inv (ended 0) ∧ step (ended 0) = .next (ended 0) ∧ (∀ rest, (ended 0).inputs ≠ .reset :: rest) ∧
      (ended 0).runState = .finished) :=
  ⟨⟨runningIn_inv _ rfl, append_next, nofun⟩, ended_inv 0 (.inl rfl), rfl, nofun, rfl⟩

theorem witness_ClockLaw : (∃ t, step polled = .next t) ∧
    (∃ t, exec .phWait polled = .next t ∧ t.clkLast = 8000) ∧ exec .phIdle polled = .next polled :=
  ⟨⟨_, rfl⟩, ⟨_, rfl, by decide⟩, rfl⟩

theorem witness_OnlyTheNamedInstructionsWrite :
    exec .phXreq (runningIn .xreq) = .next (requestStep (runningIn .xreq)) ∧
    (∃ t, exec (.wrReg .period 5) State.reset = .next t ∧ t.period = 5) :=
  ⟨rfl, _, rfl, rfl⟩

theorem witness_ResetEventRestoresR47 :
    ({ ended 0 with inputs := [.reset] } : State).inputs = [.reset] := rfl

end Sys2Proof.Tests
end

