-- ==== Sys2Proof/Proofs/CommandPort.lean ====
section
/-! PROOF. The command port (30_encoding.md R108): what a write to CMD does with the word it carries. -/

namespace Sys2Proof.Machine

/-- R110: the decoder yields no CKBUF longer than a buffer. -/
theorem decodeCommand_wellFormed {w : BitVec 16} {c : Command} (h : decodeCommand w = .ok c) :
    c.wellFormed = true := by
  cases c with
  | ckbuf var buf n =>
    have hn : n.toNat ≤ frameLen := by
      simp only [decodeCommand] at h
      split_ifs at h <;> cases h
      exact Nat.le_of_not_lt ‹_›
    exact decide_eq_true hn
  | _ => rfl

/-- A legal word runs as the instruction of its command (R108). -/
theorem writeCommand_ok {wdata : DWord} {c : Command} (h : decodeCommand (wdata.setWidth 16) = .ok c)
    (s : State) : writeCommand wdata s = exec c.toInstr s := by
  rw [writeCommand, h]
  exact execCommand_eq_exec c s

/-- An illegal word is refused (R108, R112). -/
theorem writeCommand_rejected {wdata : DWord} {why : Reject}
    (h : decodeCommand (wdata.setWidth 16) = .rejected why) (s : State) :
    writeCommand wdata s = .next (raiseBusErr s) := by
  rw [writeCommand, h]

/-- While Running the command port refuses every word (R172). -/
theorem exec_wrReg_cmd_running {s : State} (wdata : DWord) (h : s.runState = .running) :
    exec (.wrReg .cmd wdata) s = .next (raiseBusErr s) :=
  exec_wrReg_refused wdata (by rw [writeAllowed_cmd, h]; rfl)

/-- START alone has acceptance conditions beyond STATE ≠ Running (R108, R193). -/
theorem exec_toInstr_ok {c : Command} {s : State} (hr : s.runState ≠ .running)
    (hw : c.wellFormed = true) (hc : c ≠ .start) :
    ∃ u, exec c.toInstr s = .next (answerOk 0 u) := by
  cases c with
  | ckinit var => exact ⟨_, congrArg _ (whenNotRunning_open hr)⟩
  | ckbyte b => exact ⟨_, congrArg _ (whenNotRunning_open hr)⟩
  | ckbuf var buf n =>
    have hn : n.toNat ≤ frameLen := of_decide_eq_true hw
    exact ⟨_, congrArg _ ((if_pos hn).trans (whenNotRunning_open hr))⟩
  | enc => exact ⟨_, congrArg _ (whenNotRunning_open hr)⟩
  | dec => exact ⟨_, congrArg _ (whenNotRunning_open hr)⟩
  | start => exact absurd rfl hc

/-- Settles O7: `exec_wrReg_cmd` hands an open port's word to `writeCommand`, whose two cases are the
decoder's answers; a closed port refuses before the word is read. -/
theorem commandPortRunsTheCommand : Obligations.CommandPortRunsTheCommand := by
  intro s wdata
  refine ⟨fun c hr hd => ⟨?_, fun hc => ?_⟩, fun why hd => ?_, exec_wrReg_cmd_running wdata⟩
  · rw [exec_wrReg_cmd wdata hr, writeCommand_ok hd]
  · obtain ⟨u, hu⟩ := exec_toInstr_ok hr (decodeCommand_wellFormed hd) hc
    exact ⟨_, hu, answerOk_answer u 0⟩
  · by_cases hr : s.runState = .running
    · exact exec_wrReg_cmd_running wdata hr
    · exact (exec_wrReg_cmd wdata hr).trans (writeCommand_rejected hd s)

end Sys2Proof.Machine
end

