-- ==== Sys2Proof/Proofs/ShiftStep.lean ====
section
/-! PROOF. The CRC shift step and the absorption of one byte (40_checksum.md R131, R132). -/

namespace Sys2Proof.Machine

/-- R131: the bit shifted out is dropped and a 0 enters at bit 0. -/
theorem toNat_shiftLeft_one (a : Half) : (a <<< 1).toNat = 2 * a.toNat % 2 ^ 16 := by
  rw [BitVec.toNat_shiftLeft, Nat.shiftLeft_eq, pow_one, Nat.mul_comm]

/-- R131: the test is on bit 15 before the shift. -/
theorem crcBit_of_msb_true (p : CrcParams) {a : Half} (h : a.msb = true) :
    crcBit p a = (a <<< 1) ^^^ p.poly :=
  if_pos h

/-- R131: with bit 15 clear the polynomial stays out. -/
theorem crcBit_of_msb_false (p : CrcParams) {a : Half} (h : a.msb = false) : crcBit p a = a <<< 1 :=
  if_neg (Bool.eq_false_iff.mp h)

/-- R132: a byte moved up by 8 meets bits 15:8 of the accumulator and leaves bits 7:0 alone. -/
theorem xor_shiftLeft_eight_eq_append (a : Half) (b : Byte) :
    a ^^^ (b.setWidth 16 <<< 8) = (a.extractLsb' 8 8 ^^^ b) ++ a.extractLsb' 0 8 := by
  ext i hi
  rw [BitVec.getElem_append]
  split
  case isTrue hlow => simp [hlow, hi]
  case isFalse hhigh =>
    have hb : i - 8 < 8 := by omega
    have hsum : 8 + (i - 8) = i := by omega
    simp [hhigh, hb, hsum, hi]

/-- Settles O16: the shift step by cases on bit 15; the byte by `xor_shiftLeft_eight_eq_append`, after which
`crcShift_eq_iterate` counts the eight steps. -/
theorem crcByteIsEightShiftSteps : Obligations.CrcByteIsEightShiftSteps := by
  refine fun p a => ⟨fun hset => ?_, fun hclear => ?_, fun b => ?_⟩
  · have hm : a.msb = true := BitVec.msb_eq_true_iff_two_mul_ge.mpr (by omega)
    rw [crcBit_of_msb_true p hm, BitVec.toNat_xor, toNat_shiftLeft_one]
  · have hm : a.msb = false := BitVec.msb_eq_false_iff_two_mul_lt.mpr (by omega)
    rw [crcBit_of_msb_false p hm, toNat_shiftLeft_one]
  · rw [crcByte, crcShift_eq_iterate, xor_shiftLeft_eight_eq_append]

end Sys2Proof.Machine
end

