-- ==== Sys2Proof/Proofs/FrameBytes.lean ====
section
/-! PROOF. The bytes of a frame (41_framecodec.md R150): its body and checksum field as lists, and the bytes
of a value and of a checksum as numbers. -/

namespace Sys2Proof.Machine

/-- R73: most significant byte first. -/
theorem valueBytes_map_toNat (v : Word) :
    (valueBytes v).map BitVec.toNat =
      [v.toNat / 2 ^ 24, v.toNat / 2 ^ 16 % 256, v.toNat / 2 ^ 8 % 256, v.toNat % 256] := by
  have htop : v.toNat / 2 ^ 24 < 256 := by omega
  simpa [valueBytes, Nat.shiftRight_eq_div_pow] using htop

/-- R74: high byte first. -/
theorem checksumBytes_map_toNat (c : Half) :
    (checksumBytes c).map BitVec.toNat = [c.toNat / 256, c.toNat % 256] := by
  have htop : c.toNat / 256 < 256 := by omega
  simpa [checksumBytes, Nat.shiftRight_eq_div_pow] using htop

@[simp] theorem body_length (h0 h1 h2 h3 : Byte) (a b : Word) : (body h0 h1 h2 h3 a b).length = 12 := rfl

/-- R150: a frame is its body and the checksum field. -/
theorem frame_toList (p : CrcParams) (h0 h1 h2 h3 : Byte) (a b : Word) :
    (frame p h0 h1 h2 h3 a b).toList =
      body h0 h1 h2 h3 a b ++ checksumBytes (crc16 p (body h0 h1 h2 h3 a b)) := rfl

/-- R150: the bytes before the checksum field are the body. -/
theorem frame_toList_take_twelve (p : CrcParams) (h0 h1 h2 h3 : Byte) (a b : Word) :
    (frame p h0 h1 h2 h3 a b).toList.take 12 = body h0 h1 h2 h3 a b := by
  rw [frame_toList]
  exact List.take_left' (body_length h0 h1 h2 h3 a b)

theorem body_map_toNat (h0 h1 h2 h3 : Byte) (a b : Word) :
    (body h0 h1 h2 h3 a b).map BitVec.toNat =
      [h0.toNat, h1.toNat, h2.toNat, h3.toNat] ++ (valueBytes a).map BitVec.toNat
        ++ (valueBytes b).map BitVec.toNat := by
  simp only [body, List.map_append, List.map_cons, List.map_nil]

/-- Settles O25: the first 12 bytes are the body, so both sides speak of one checksum; then field by field. -/
theorem frameLayout : Obligations.FrameLayout := by
  intro p h0 h1 h2 h3 a b f c
  have hc : c = (crc16 p (body h0 h1 h2 h3 a b)).toNat :=
    congrArg (fun m => (crc16 p m).toNat) (frame_toList_take_twelve p h0 h1 h2 h3 a b)
  rw [hc, frame_toList, List.map_append, body_map_toNat, valueBytes_map_toNat, valueBytes_map_toNat,
    checksumBytes_map_toNat]
  rfl

end Sys2Proof.Machine
end

