-- ==== Sys2Proof/Proofs/WaitAndStrobes.lean ====
section
/-! PROOF. The phases that read the clock, WAIT, PRE and POST (42_scheduler.md R201, R204, R213): what a poll
decides, and the law of the clock from the poll to the strobe. -/

namespace Sys2Proof.Machine

/-- R201: one `now()`, then the two tests on its answer. -/
theorem exec_phWait (s : State) : exec .phWait s = .next (pollStep (nowValue s) (afterNow s)) := rfl

/-- R204: the strobe is the `now()` of the step itself. -/
theorem exec_phPre (s : State) :
    exec .phPre s = .next { afterNow s with tPre := nowValue s, phase := .enc } := rfl

/-- R213: the strobe is the `now()` of the step itself. -/
theorem exec_phPost (s : State) :
    exec .phPost s = .next { afterNow s with tPost := nowValue s, phase := .append } := rfl

/-- Comparing with the elapsed time is comparing with R201's `e`, a number modulo 2^64. -/
theorem le_sub_iff_toNat_le_mod (d n t : DWord) :
    d ≤ n - t ↔ d.toNat ≤ (2 ^ 64 - t.toNat + n.toNat) % 2 ^ 64 := by
  rw [BitVec.le_def, BitVec.toNat_sub]

/-- R202: the duration test comes first. -/
theorem pollStep_of_ends {n : DWord} {s : State} (hends : byDuration s = true ∧ s.duration ≤ n - s.tStart) :
    pollStep n s = finishRun s :=
  if_pos hends

/-- R201: the deadline reached, and the run goes on. -/
theorem pollStep_of_due {n : DWord} {s : State} (hon : ¬ (byDuration s = true ∧ s.duration ≤ n - s.tStart))
    (hdue : s.deadline ≤ n - s.tStart) : pollStep n s = goto .pre s :=
  (if_neg hon).trans (if_pos hdue)

/-- R203: the deadline not reached, and the run goes on. -/
theorem pollStep_of_early {n : DWord} {s : State} (hon : ¬ (byDuration s = true ∧ s.duration ≤ n - s.tStart))
    (hearly : ¬ s.deadline ≤ n - s.tStart) : pollStep n s = goto .wait s :=
  (if_neg hon).trans (if_neg hearly)

/-- R201: beside PHASE and STATE a poll changes nothing but the clock's own fields, and stores its answer in
`clk_last` only. -/
theorem pollStep_afterNow_frame (s : State) :
    pollStep (nowValue s) (afterNow s) = { s with
      phase := (pollStep (nowValue s) (afterNow s)).phase
      runState := (pollStep (nowValue s) (afterNow s)).runState
      clkLast := nowValue s
      clockScript := (pollStep (nowValue s) (afterNow s)).clockScript
      draws := (pollStep (nowValue s) (afterNow s)).draws } := by
  obtain ⟨-, -, hend⟩ | ⟨-, -, hpre⟩ | ⟨-, -, hwait⟩ := pollStep_cases (nowValue s) (afterNow s)
  · rw [hend]; rfl
  · rw [hpre]; rfl
  · rw [hwait]; rfl

/-- Only the deadline test sends a poll to PRE (R201). -/
theorem deadline_le_of_pollStep_phase_pre {n : DWord} {s : State} (h : (pollStep n s).phase = .pre) :
    s.deadline ≤ n - s.tStart ∧ pollStep n s = goto .pre s := by
  obtain ⟨-, -, hend⟩ | ⟨-, hdue, hpre⟩ | ⟨-, -, hwait⟩ := pollStep_cases n s
  · rw [hend] at h; cases h
  · exact ⟨hdue, hpre⟩
  · rw [hwait] at h; cases h

/-- A deadline that has elapsed since `t` is a distance in plain numbers wherever the clock is not behind `t`. -/
theorem toNat_add_toNat_le_of_le_sub {d n t : DWord} (hd : d ≤ n - t) (ht : t ≤ n) :
    d.toNat + t.toNat ≤ n.toNat := by
  rw [BitVec.le_def, BitVec.toNat_sub_of_le ht] at hd
  rw [BitVec.le_def] at ht
  omega

/-- Settles O36: `le_sub_iff_toNat_le_mod` reads both tests as numbers, and each outcome has its `pollStep_of_`
equation. -/
theorem waitPollsTheClock : Obligations.WaitPollsTheClock := by
  intro s
  have hends := and_congr_right fun _ : byDuration s = true =>
    le_sub_iff_toNat_le_mod s.duration (nowValue s) s.tStart
  have hdue := le_sub_iff_toNat_le_mod s.deadline (nowValue s) s.tStart
  refine ⟨nowValue s, _, rfl, exec_phWait s, ⟨fun h => ?_, fun hon h => ?_, fun hon h => ?_⟩, ?_⟩
  · rw [pollStep_of_ends (s := afterNow s) (hends.mpr h)]
    exact ⟨rfl, rfl⟩
  · rw [pollStep_of_due (s := afterNow s) (mt hends.mp hon) (hdue.mpr h)]
    exact ⟨rfl, rfl⟩
  · rw [pollStep_of_early (s := afterNow s) (mt hends.mp hon) (mt hdue.mp (Nat.not_le.mpr h))]
    exact ⟨rfl, rfl⟩
  · exact pollStep_afterNow_frame s

/-- Settles O37: the poll left WAIT by the deadline test, and neither the poll nor the strobe's read goes back
(`clkLast_le_nowValue`), so the distance to T_START only grows. -/
theorem preStrobesAfterTheDeadline : Obligations.PreStrobesAfterTheDeadline := by
  refine ⟨fun s => ⟨_, exec_phPre s, clkLast_le_nowValue s, rfl⟩, fun s t u hstart hwait hpre hstrobe => ?_⟩
  rw [exec_phWait] at hwait
  cases hwait
  obtain ⟨hdue, hgoto⟩ := deadline_le_of_pollStep_phase_pre hpre
  rw [hgoto, exec_phPre] at hstrobe
  cases hstrobe
  have hfresh : nowValue s ≤ nowValue (goto .pre (afterNow s)) := clkLast_le_nowValue (goto .pre (afterNow s))
  have hpoll : s.deadline.toNat + s.tStart.toNat ≤ (nowValue s).toNat :=
    toNat_add_toNat_le_of_le_sub hdue (BitVec.le_trans hstart (clkLast_le_nowValue s))
  exact ⟨hfresh, Nat.le_sub_of_add_le (hpoll.trans hfresh)⟩

/-- Settles O45: the strobe's read is not below the clock's last answer, hence not below a T_PRE that is not
above it. -/
theorem postStrobes : Obligations.PostStrobes := by
  intro s
  have hlaw : s.clkLast ≤ nowValue s := clkLast_le_nowValue s
  exact ⟨_, exec_phPost s, hlaw, fun hpre => BitVec.le_trans hpre hlaw, rfl⟩

end Sys2Proof.Machine
end

