-- ==== Sys2Proof/Proofs/SamplePhases.lean ====
section
/-! PROOF. The phases CHECK, ENC and DEC (42_scheduler.md R198, R205, R212): the iteration's deadline, the sample
put into the Command, and the values taken from the Response. -/

namespace Sys2Proof.Machine

/-- R198, R199: a product of two 32-bit numbers fits 64 bits. -/
theorem toNat_setWidth_mul_setWidth (a b : Word) :
    (a.setWidth 64 * b.setWidth 64 : DWord).toNat = a.toNat * b.toNat := by
  have hfits : a.toNat * b.toNat < 2 ^ 64 :=
    (Nat.mul_lt_mul'' a.isLt b.isLt).trans_eq (pow_add 2 32 32).symm
  have hwiden (x : Word) : (x.setWidth 64).toNat = x.toNat := BitVec.toNat_setWidth_of_le (by decide)
  rw [BitVec.toNat_mul, hwiden, hwiden, Nat.mod_eq_of_lt hfits]

/-- R200: a run by count ends at COUNT. -/
theorem checkStep_of_last {s : State} (hcount : byDuration s = false) (hlast : s.iter = s.count) :
    checkStep s = finishRun s :=
  if_pos ⟨hcount, hlast⟩

/-- R198: otherwise the iteration's deadline is set. -/
theorem checkStep_of_not_last {s : State} (h : byDuration s = true ∨ s.iter ≠ s.count) :
    checkStep s = { s with deadline := s.iter.setWidth 64 * s.period.setWidth 64, phase := .wait } :=
  if_neg (not_and_or.mpr (h.imp_left ne_false_of_eq_true))

/-- Settles O35: each clause is its equation of `checkStep`; the product is exact by
`toNat_setWidth_mul_setWidth`. -/
theorem checkSetsTheDeadlineOrEnds : Obligations.CheckSetsTheDeadlineOrEnds := fun s =>
  ⟨fun hcount hlast => congrArg _ (checkStep_of_last hcount hlast),
    fun h => ⟨_, congrArg _ (checkStep_of_not_last h), toNat_setWidth_mul_setWidth s.iter s.period⟩⟩

/-- R206: AXIS_MAP leaves at most one of the two values undriven. -/
theorem loadSample_eq (m : AxisMap) (v : Word) (s : State) :
    loadSample m v s =
      { s with valA := if m = .b then s.valA else v, valB := if m = .a then s.valB else v } := by
  cases m <;> rfl

/-- R205, inside TRAJ. -/
theorem exec_phEnc {s : State} (h : s.iter.toNat < Config.trajCap) :
    exec .phEnc s = .next (goto .xreq (encodeFrame Config.params.crc
      (loadSample Config.axisMap (s.traj.read s.iter.toNat) s))) := by
  have hstep := encStep_eq_some (P := Config.params).mpr ⟨h, rfl⟩
  show execPhEnc s = _
  rw [execPhEnc, hstep]
  rfl

/-- Settles O38: `loadSample_eq` names the two values, and the bytes before the checksum field of their frame
are the body the accumulator absorbs (`frame_toList_take_twelve`). -/
theorem encPhaseEncodesTheSample : Obligations.EncPhaseEncodesTheSample := by
  intro s h
  refine ⟨_, _, _, rfl, rfl, rfl, ?_⟩
  rw [exec_phEnc h, loadSample_eq, frame_toList_take_twelve]
  rfl

/-- Settles O44: DEC is the codec's `decodeFrame`, which writes `values` of RXBUF without reading its header or
checksum, and then the program counter. -/
theorem decPhaseDecodesTheResponse : Obligations.DecPhaseDecodesTheResponse :=
  fun _ => rfl

end Sys2Proof.Machine
end

