-- ==== Sys2Proof/Proofs/Start.lean ====
section
/-! PROOF. START (42_scheduler.md R193 to R196): the validity of a configuration in numbers, and the accepted
command. -/

namespace Sys2Proof.Machine

/-- RUNMODE BY_COUNT in numbers (R31). -/
theorem byDuration_eq_false_iff (s : State) : byDuration s = false ↔ s.cfg.toNat % 2 = 0 := by
  rw [← Bool.not_eq_true, byDuration_iff, Nat.mod_two_not_eq_one]

/-- R194, BY_COUNT. -/
theorem cfgValid_of_byCount {P : Params} {s : State} (h : byDuration s = false) :
    cfgValid P s = true ↔ s.period ≠ 0 ∧ s.trajLen.toNat ≤ P.trajCap ∧
      s.count.toNat ≤ s.trajLen.toNat ∧ stampsPerIter s * s.count.toNat ≤ P.tsCap := by
  simp [cfgValid, h, and_assoc]

/-- R194, BY_DURATION. -/
theorem cfgValid_of_byDuration {P : Params} {s : State} (h : byDuration s = true) :
    cfgValid P s = true ↔ s.period ≠ 0 ∧ s.trajLen.toNat ≤ P.trajCap ∧
      s.duration.toNat ≤ s.trajLen.toNat * s.period.toNat ∧
      s.duration.toNat ≤ P.tsCap / stampsPerIter s * s.period.toNat := by
  simp [cfgValid, h, and_assoc]

/-- Settles O30: in each run mode the clause of the other mode is vacuous. -/
theorem configurationValidity : Obligations.ConfigurationValidity := by
  intro s k P L
  have hk : stampsPerIter s = k := stampsPerIter_eq s
  have hP : s.period ≠ 0 ↔ P ≠ 0 := BitVec.toNat_ne_iff_ne.symm
  cases hmode : byDuration s with
  | false =>
    have hcfg : s.cfg.toNat % 2 = 0 := (byDuration_eq_false_iff s).mp hmode
    rw [cfgValid_of_byCount hmode, hk, hP]
    simp [hcfg, Config.params, L]
  | true =>
    have hcfg : s.cfg.toNat % 2 = 1 := (byDuration_iff s).mp hmode
    rw [cfgValid_of_byDuration hmode, hk, hP]
    simp [hcfg, Config.params, L, P]

/-- R193, R196: all acceptance conditions met. -/
theorem exec_start_valid {s : State} (hidle : s.runState = .idle) (hclean : s.errCode = 0)
    (hvalid : cfgValid Config.params s = true) :
    exec .start s = .next (answerOk 0 (startRun s)) := by
  have h : startCommand Config.params s = answerOk 0 (startRun s) := by
    rw [startCommand, if_neg (not_not.mpr hidle), if_neg (not_not.mpr hclean), if_pos hvalid]
  exact congrArg _ h

/-- Settles O31: the accepted command is `startRun`, whose one clock read obeys `clkLast_le_nowValue`. -/
theorem startBeginsTheRun : Obligations.StartBeginsTheRun :=
  fun s hidle hclean hvalid =>
    ⟨nowValue s, _, exec_start_valid hidle hclean hvalid, rfl, clkLast_le_nowValue s, rfl⟩

end Sys2Proof.Machine
end

