-- ==== Sys2Proof/Proofs/HostReads.lean ====
section
/-! PROOF. The host's reads of the two memories, RD.TRAJ and RD.TS (43_host_access.md R174, R177). -/

namespace Sys2Proof.Machine

/-- R174, inside TRAJ: neither STATE nor TRAJ_LEN is asked. -/
theorem exec_rdTraj_of_lt {idx : Word} {s : State} (h : idx.toNat < Config.trajCap) :
    exec (.rdTraj idx) s = .next (answerOk ((s.traj.read idx.toNat).setWidth 64) s) := by
  have hread : trajRead Config.params idx.toNat s = some (s.traj.read idx.toNat) :=
    trajRead_eq_some.mpr ⟨h, rfl⟩
  show execRdTraj idx s = _
  rw [execRdTraj, readTrajectory, hread]

/-- R174, outside TRAJ. -/
theorem exec_rdTraj_of_le {idx : Word} {s : State} (h : Config.trajCap ≤ idx.toNat) :
    exec (.rdTraj idx) s = .next (raiseBusErr s) := by
  have hread : trajRead Config.params idx.toNat s = none := if_neg (Nat.not_lt.mpr h)
  show execRdTraj idx s = _
  rw [execRdTraj, readTrajectory, hread]

/-- Settles O11: whether the index lies inside TRAJ alone decides between the two answers. -/
theorem trajectoryReadAnswersEntry : Obligations.TrajectoryReadAnswersEntry :=
  fun _ _ => ⟨exec_rdTraj_of_lt, exec_rdTraj_of_le⟩

/-- R177, an appended entry of a run that does not proceed. -/
theorem exec_rdTs_of_lt {idx : Word} {s : State} (hfree : s.runState ≠ .running) (hinside : idx < s.tsLen) :
    exec (.rdTs idx) s = .next (answerOk (s.ts.read idx.toNat) s) := by
  show execRdTs idx s = _
  rw [execRdTs, if_neg hfree, if_neg (BitVec.not_le.mpr hinside)]
  rfl

/-- R177: the lock of a run, and the bound. -/
theorem exec_rdTs_of_running_or_le {idx : Word} {s : State} (h : s.runState = .running ∨ s.tsLen ≤ idx) :
    exec (.rdTs idx) s = .next (raiseBusErr s) := by
  show execRdTs idx s = _
  rw [execRdTs]
  by_cases hrun : s.runState = .running
  · rw [if_pos hrun]
  · rw [if_neg hrun, if_pos (h.resolve_left hrun)]

/-- R106: TS has no write, so the selector that would be one names no operation. -/
theorem decodeBus_of_sel_five {w : BitVec 99} (h : (busSel w).toNat = 5) :
    decodeBus w = .rejected .illegalSelector := by
  rw [decodeBus, h]
  rfl

/-- Settles O13: the lock and the bound split the answers; after reset TS_LEN is 0, so the bound alone refuses
every index. -/
theorem seriesReadAnswersEntry : Obligations.SeriesReadAnswersEntry := by
  refine ⟨fun _ _ => ⟨exec_rdTs_of_lt, exec_rdTs_of_running_or_le⟩, fun idx => ?_,
    fun _ => decodeBus_of_sel_five⟩
  have hempty : State.reset.tsLen ≤ idx := Nat.zero_le idx.toNat
  exact exec_rdTs_of_running_or_le (.inr hempty)

end Sys2Proof.Machine
end

