-- ==== Sys2Proof/Proofs/Encoding.lean ====
section
/-! PROOF. The encodings of 30_encoding.md and the register map of 10_state.md R21: each decoder against its
encoder, in both directions. -/

namespace Sys2Proof

/-! ### Fields -/

/-- Two fields make a word exactly when they are its two fields. -/
theorem append_eq_iff_fields {v w : Nat} (a : BitVec v) (b : BitVec w) (x : BitVec (v + w)) :
    a ++ b = x ↔ a = x.extractLsb' w v ∧ b = x.extractLsb' 0 w := by
  constructor
  · rintro rfl
    exact ⟨BitVec.extractLsb'_append_eq_left.symm, BitVec.extractLsb'_append_eq_right.symm⟩
  · rintro ⟨rfl, rfl⟩
    rw [BitVec.extractLsb'_append_extractLsb'_eq_extractLsb' (Nat.zero_add w).symm, BitVec.extractLsb'_eq_self]

/-- A word of two fields, in numbers. -/
theorem toNat_append_eq {v w : Nat} (x : BitVec v) (y : BitVec w) :
    (x ++ y).toNat = x.toNat * 2 ^ w + y.toNat := by
  rw [BitVec.toNat_append, ← Nat.shiftLeft_add_eq_or_of_lt y.isLt, Nat.shiftLeft_eq]

@[simp] theorem cmdOp_append (op arg : Byte) : cmdOp (op ++ arg) = op :=
  BitVec.extractLsb'_append_eq_left

@[simp] theorem cmdArg_append (op arg : Byte) : cmdArg (op ++ arg) = arg :=
  BitVec.extractLsb'_append_eq_right

/-- A CMD word is its two fields (R107). -/
theorem append_eq_iff_cmd (op arg : Byte) (w : BitVec 16) : op ++ arg = w ↔ op = cmdOp w ∧ arg = cmdArg w :=
  append_eq_iff_fields op arg w

@[simp] theorem Variant.ofCode_code (v : Variant) : Variant.ofCode v.code = v := by
  cases v <;> rfl

@[simp] theorem BufSel.ofCode_code (b : BufSel) : BufSel.ofCode b.code = b := by
  cases b <;> rfl

@[simp] theorem Variant.code_ofCode (b : BitVec 1) : (Variant.ofCode b).code = b := by
  revert b; decide

@[simp] theorem BufSel.code_ofCode (b : BitVec 1) : (BufSel.ofCode b).code = b := by
  revert b; decide

/-- The four fields of CKBUF's argument (R110). -/
theorem append_eq_iff_ckbufArg (v b : BitVec 1) (z : BitVec 2) (n : BitVec 4) (arg : Byte) :
    v ++ b ++ z ++ n = arg ↔ v = arg.extractLsb' 7 1 ∧ b = arg.extractLsb' 6 1 ∧ z = arg.extractLsb' 4 2 ∧
      n = arg.extractLsb' 0 4 := by
  have hhigh : arg.extractLsb' 4 4 = arg.extractLsb' 7 1 ++ arg.extractLsb' 6 1 ++ arg.extractLsb' 4 2 := by
    rw [BitVec.extractLsb'_append_extractLsb'_eq_extractLsb' (by decide),
      BitVec.extractLsb'_append_extractLsb'_eq_extractLsb' (by decide)]
  rw [append_eq_iff_fields, hhigh, append_eq_iff_fields, append_eq_iff_fields]
  simp only [BitVec.extractLsb'_append_eq_left, BitVec.extractLsb'_append_eq_right, and_assoc]

/-! ### Command words -/

/-- R109, R110: every legal command's word decodes to it. -/
theorem decodeCommand_encodeCommand {c : Command} (h : c.wellFormed = true) :
    decodeCommand (encodeCommand c) = .ok c := by
  cases c with
  | ckinit var => cases var <;> rfl
  | ckbyte b => simp [decodeCommand, encodeCommand]
  | ckbuf var buf n =>
    have hn : ¬ frameLen < n.toNat := Nat.not_lt.mpr (of_decide_eq_true h)
    obtain ⟨hop, harg⟩ := (append_eq_iff_cmd 0x03 (var.code ++ buf.code ++ (0 : BitVec 2) ++ n)
      (encodeCommand (.ckbuf var buf n))).mp rfl
    obtain ⟨hvar, hbuf, hzero, hlen⟩ := (append_eq_iff_ckbufArg ..).mp harg
    simp [decodeCommand, ← hop, ← hvar, ← hbuf, ← hzero, ← hlen, hn]
  | enc | dec | start => rfl

/-- R109, R110: a word that decodes is the word of its command. -/
theorem encodeCommand_of_ok {w : BitVec 16} {c : Command} (h : decodeCommand w = .ok c) :
    encodeCommand c = w := by
  simp only [decodeCommand] at h
  split_ifs at h with hinit hzero hbyte hbuf hres hlong henc h0 hdec h1 hstart h2 <;> cases h
  · exact (append_eq_iff_cmd _ _ w).mpr ⟨hinit.symm,
      (append_eq_iff_fields (0 : BitVec 7) _ _).mpr ⟨hzero.symm, Variant.code_ofCode _⟩⟩
  · exact (append_eq_iff_cmd _ _ w).mpr ⟨hbyte.symm, rfl⟩
  · exact (append_eq_iff_cmd _ _ w).mpr ⟨hbuf.symm, (append_eq_iff_ckbufArg ..).mpr
      ⟨Variant.code_ofCode _, BufSel.code_ofCode _, (not_not.mp hres).symm, rfl⟩⟩
  · exact (append_eq_iff_cmd 0x10 0 w).mpr ⟨henc.symm, h0.symm⟩
  · exact (append_eq_iff_cmd 0x11 0 w).mpr ⟨hdec.symm, h1.symm⟩
  · exact (append_eq_iff_cmd 0x20 0 w).mpr ⟨hstart.symm, h2.symm⟩

/-- The decoder accepts exactly the words of the legal commands. -/
theorem decodeCommand_eq_ok_iff {w : BitVec 16} {c : Command} :
    decodeCommand w = .ok c ↔ c.wellFormed = true ∧ encodeCommand c = w := by
  constructor
  · exact fun h => ⟨Machine.decodeCommand_wellFormed h, encodeCommand_of_ok h⟩
  · rintro ⟨hw, rfl⟩
    exact decodeCommand_encodeCommand hw

/-! ### Phase codes -/

/-- R111. -/
theorem code_of_decodePhase {w : BitVec 4} {p : Phase} (h : decodePhase w = .ok p) : p.code = w := by
  unfold decodePhase at h
  split at h <;> cases h
  all_goals exact BitVec.eq_of_toNat_eq (Eq.symm ‹w.toNat = _›)

/-! ### The register map -/

/-- The list of the map has each register under its number (R21). -/
theorem addr_of_mem_fixedAddresses : ∀ x ∈ fixedAddresses, x.2.addr.toNat = x.1 := by
  decide

theorem addr_of_lookup {n : Nat} {r : Reg} (h : fixedAddresses.lookup n = some r) : r.addr.toNat = n := by
  obtain ⟨before, after, hl, -⟩ := List.lookup_eq_some_iff.mp h
  exact addr_of_mem_fixedAddresses (n, r) (by rw [hl]; simp)

/-- R21: an address names the register whose number it is. -/
theorem addr_of_ofAddr {a : Word} {r : Reg} (h : Reg.ofAddr a = some r) : r.addr = a := by
  apply BitVec.eq_of_toNat_eq
  unfold Reg.ofAddr at h
  split at h
  · cases h
    simp only [Reg.addr, BitVec.toNat_ofNat]
    omega
  · split at h
    · cases h
      simp only [Reg.addr, BitVec.toNat_ofNat]
      omega
    · exact addr_of_lookup h

theorem ofAddr_eq_some_iff {a : Word} {r : Reg} : Reg.ofAddr a = some r ↔ r.addr = a :=
  ⟨addr_of_ofAddr, fun h => h ▸ Reg.ofAddr_addr r⟩

/-- R21: the fixed addresses are two runs. -/
theorem lookup_isSome_iff (n : Nat) :
    (fixedAddresses.lookup n).isSome = true ↔ n ≤ 0x0D ∨ (0x10 ≤ n ∧ n ≤ 0x19) := by
  rw [List.lookup_isSome_iff]
  simp [fixedAddresses]
  omega

/-- R21, R70: the mapped addresses are four runs. -/
theorem ofAddr_isSome_iff (a : Word) : (Reg.ofAddr a).isSome = true ↔
    a.toNat ≤ 0x0D ∨ (0x10 ≤ a.toNat ∧ a.toNat ≤ 0x19) ∨ (0x40 ≤ a.toNat ∧ a.toNat ≤ 0x4D) ∨
      (0x50 ≤ a.toNat ∧ a.toNat ≤ 0x5D) := by
  unfold Reg.ofAddr
  split
  · simp only [Option.isSome_some, true_iff]; omega
  · split
    · simp only [Option.isSome_some, true_iff]; omega
    · rw [lookup_isSome_iff]; omega

/-- Settles O5: the encoder's numbers are the map's, and the decoder inverts the encoder. -/
theorem registerMapIsExact : Obligations.RegisterMapIsExact := by
  unfold Obligations.RegisterMapIsExact
  intro number
  have hnumber (r : Reg) : r.addr.toNat = number r := by
    cases r with
    | txbuf i => exact Nat.mod_eq_of_lt (by omega)
    | rxbuf i => exact Nat.mod_eq_of_lt (by omega)
    | _ => rfl
  refine ⟨hnumber, fun a r => ?_, ofAddr_isSome_iff⟩
  rw [ofAddr_eq_some_iff, ← hnumber, ← BitVec.toNat_inj, eq_comm]

/-! ### Host transactions -/

/-- R105, R106: a BUS word decodes by `sel`; a read's write data is ignored. -/
theorem encode_of_decodeBus {w : BitVec 99} {i : Instr} (h : decodeBus w = .ok i) :
    i.wellFormed = true ∧
      encode i = .bus (busWord (busSel w) (busAddr w) (if (busSel w).getLsbD 0 then busWdata w else 0)) := by
  unfold decodeBus at h
  have hsel {n : BitVec 3} (hn : (busSel w).toNat = n.toNat) : busSel w = n := BitVec.eq_of_toNat_eq hn
  split at h
  · rename_i h0
    split at h <;> cases h
    rename_i r hr
    rw [hsel (n := 0) h0, ← addr_of_ofAddr hr]
    exact ⟨rfl, rfl⟩
  · rename_i h1
    split at h <;> cases h
    rename_i r hr
    rw [hsel (n := 1) h1, ← addr_of_ofAddr hr]
    exact ⟨rfl, rfl⟩
  · rename_i h2
    cases h
    rw [hsel (n := 2) h2]
    exact ⟨rfl, rfl⟩
  · rename_i h3
    cases h
    rw [hsel (n := 3) h3]
    exact ⟨rfl, rfl⟩
  · rename_i h4
    cases h
    rw [hsel (n := 4) h4]
    exact ⟨rfl, rfl⟩
  · cases h

/-- Settles O1: each format's decoder inverts its encoder. -/
theorem decodeEncodeGivesInstructionBack : Obligations.DecodeEncodeGivesInstructionBack := by
  intro i hw
  have hcmd {c : Command} (hc : c.wellFormed = true) :
      decode (.cmd (encodeCommand c)) = .ok c.toInstr :=
    congrArg (Decoded.map Command.toInstr) (decodeCommand_encodeCommand hc)
  cases i with
  | rdReg r => simp [encode, decode, decodeBus, busSel_busWord, busAddr_busWord, Reg.ofAddr_addr]
  | wrReg r wdata =>
    simp [encode, decode, decodeBus, busSel_busWord, busAddr_busWord, busWdata_busWord, Reg.ofAddr_addr]
  | rdTraj idx => simp [encode, decode, decodeBus, busSel_busWord, busAddr_busWord]
  | wrTraj idx wdata =>
    simp [encode, decode, decodeBus, busSel_busWord, busAddr_busWord, busWdata_busWord]
  | rdTs idx => simp [encode, decode, decodeBus, busSel_busWord, busAddr_busWord]
  | ckinit var => exact hcmd (c := .ckinit var) rfl
  | ckbyte b => exact hcmd (c := .ckbyte b) rfl
  | ckbuf var buf n => exact hcmd (c := .ckbuf var buf n) hw
  | enc => exact hcmd (c := .enc) rfl
  | dec => exact hcmd (c := .dec) rfl
  | start => exact hcmd (c := .start) rfl
  | phIdle => exact decode_phase_code .idle
  | phCheck => exact decode_phase_code .check
  | phWait => exact decode_phase_code .wait
  | phPre => exact decode_phase_code .pre
  | phEnc => exact decode_phase_code .enc
  | phXreq => exact decode_phase_code .xreq
  | phXwait => exact decode_phase_code .xwait
  | phDec => exact decode_phase_code .dec
  | phPost => exact decode_phase_code .post
  | phAppend => exact decode_phase_code .append
  | phDone => exact decode_phase_code .done

/-- The decoder of a format accepts what its own table accepts. -/
theorem Decoded.map_eq_ok {α β : Type} {f : α → β} {d : Decoded α} {b : β} (h : d.map f = .ok b) :
    ∃ a, d = .ok a ∧ f a = b := by
  cases d with
  | ok a => cases h; exact ⟨a, rfl, rfl⟩
  | rejected why => cases h

theorem encode_command (c : Command) : encode c.toInstr = .cmd (encodeCommand c) := by
  cases c <;> rfl

theorem encode_phase (p : Phase) : encode p.toInstr = .phase p.code := by
  cases p <;> rfl

theorem wellFormed_command (c : Command) : c.toInstr.wellFormed = c.wellFormed := by
  cases c <;> rfl

theorem wellFormed_phase (p : Phase) : p.toInstr.wellFormed = true := by
  cases p <;> rfl

/-- Settles O2: each format's encoder inverts its decoder, up to the write data of a read. -/
theorem encodeDecodeGivesWordBack : Obligations.EncodeDecodeGivesWordBack := by
  refine ⟨fun w i h => ?_, fun w i h => ?_, fun w i h => encode_of_decodeBus h⟩
  · obtain ⟨c, hc, rfl⟩ := Decoded.map_eq_ok h
    obtain ⟨hw, henc⟩ := decodeCommand_eq_ok_iff.mp hc
    rw [encode_command, wellFormed_command, henc]
    exact ⟨hw, rfl⟩
  · obtain ⟨p, hp, rfl⟩ := Decoded.map_eq_ok h
    rw [encode_phase, code_of_decodePhase hp]
    exact ⟨wellFormed_phase p, rfl⟩

/-! ### Match and mask -/

/-- A row's `match` and `mask` (30_encoding.md section 3): every mask has the bits of the opcode. -/
theorem and_mask_eq_iff (w : BitVec 16) (op mask value : Byte) :
    w &&& ((0xFF : Byte) ++ mask) = op ++ value ↔ op = cmdOp w ∧ value = cmdArg w &&& mask := by
  have hw : w = cmdOp w ++ cmdArg w := ((append_eq_iff_cmd _ _ w).mpr ⟨rfl, rfl⟩).symm
  have hmask : w &&& ((0xFF : Byte) ++ mask) = cmdOp w ++ (cmdArg w &&& mask) := by
    calc w &&& ((0xFF : Byte) ++ mask)
        = (cmdOp w ++ cmdArg w) &&& ((0xFF : Byte) ++ mask) := by rw [← hw]
      _ = (cmdOp w &&& 0xFF) ++ (cmdArg w &&& mask) := BitVec.and_append
      _ = cmdOp w ++ (cmdArg w &&& mask) := by rw [show cmdOp w &&& 0xFF = cmdOp w from BitVec.and_allOnes]
  rw [hmask, eq_comm, append_eq_iff_cmd, cmdOp_append, cmdArg_append]

theorem Variant.code_eq_iff (v : Variant) (b : BitVec 1) : v.code = b ↔ (v = .add8 ↔ b.getLsbD 0 = true) := by
  revert b
  cases v <;> decide

theorem BufSel.code_eq_iff (v : BufSel) (b : BitVec 1) : v.code = b ↔ (v = .rx ↔ b.getLsbD 0 = true) := by
  revert b
  cases v <;> decide

/-- The argument field is the word's low byte (R107). -/
theorem toNat_cmdArg (w : BitVec 16) : (cmdArg w).toNat = w.toNat % 256 := by
  simp [cmdArg]

theorem getLsbD_cmdArg (w : BitVec 16) {i : Nat} (hi : i < 8) : (cmdArg w).getLsbD i = w.getLsbD i := by
  simp [cmdArg, hi]

/-- Settles O3: a word decodes to a command exactly when it is the command's word
(`decodeCommand_eq_ok_iff`), and both that and the table's row are read field by field. -/
theorem commandDecodesByMatchAndMask : Obligations.CommandDecodesByMatchAndMask := by
  intro w
  have hfixed (c : Command) (op : Byte) (hw : c.wellFormed = true) (hc : encodeCommand c = op ++ (0 : Byte)) :
      decodeCommand w = .ok c ↔ w &&& 0xFFFF = op ++ (0 : Byte) := by
    rw [decodeCommand_eq_ok_iff, hc, show w &&& 0xFFFF = w from BitVec.and_allOnes, eq_comm (a := w)]
    exact and_iff_right hw
  refine ⟨fun var => ?_, fun b => ?_, fun var buf n => ?_, hfixed .enc 0x10 rfl rfl, hfixed .dec 0x11 rfl rfl,
    hfixed .start 0x20 rfl rfl⟩
  · have hrow := and_mask_eq_iff w 0x01 0xFE 0x00
    have hzero (arg : Byte) : 0 = arg.extractLsb' 1 7 ↔ 0x00 = arg &&& 0xFE := by revert arg; decide
    rw [decodeCommand_eq_ok_iff, ← getLsbD_cmdArg w (by decide)]
    refine (and_iff_right rfl).trans ?_
    refine ((append_eq_iff_cmd ..).trans ?_).trans (and_congr_left' hrow).symm
    rw [append_eq_iff_fields, Variant.code_eq_iff, hzero, and_assoc]
    simp
  · have hrow := and_mask_eq_iff w 0x02 0x00 0x00
    rw [decodeCommand_eq_ok_iff, ← toNat_cmdArg, BitVec.toNat_inj]
    refine (and_iff_right rfl).trans ?_
    refine (append_eq_iff_cmd ..).trans ((and_congr_left' hrow).trans ?_).symm
    simp
  · have hrow := and_mask_eq_iff w 0x03 0x30 0x00
    have hzero (arg : Byte) : 0 = arg.extractLsb' 4 2 ↔ 0x00 = arg &&& 0x30 := by revert arg; decide
    have hbit {i : Nat} (hi : i < 8) : ((cmdArg w).extractLsb' i 1).getLsbD 0 = w.getLsbD i := by
      rw [← getLsbD_cmdArg w hi]; simp
    have hlen : n = (cmdArg w).extractLsb' 0 4 ↔ n.toNat = w.toNat % 16 := by
      rw [← BitVec.toNat_inj]; simp [cmdArg]
    have hshort : (Command.ckbuf var buf n).wellFormed = true ↔ n.toNat ≤ 14 := decide_eq_true_iff
    have hword : encodeCommand (.ckbuf var buf n) = w ↔ 0x03 = cmdOp w ∧
        var.code ++ buf.code ++ (0 : BitVec 2) ++ n = cmdArg w := append_eq_iff_cmd ..
    rw [decodeCommand_eq_ok_iff, hshort, hword, append_eq_iff_ckbufArg, Variant.code_eq_iff, BufSel.code_eq_iff,
      hbit (by decide), hbit (by decide), hzero, hlen]
    constructor
    · rintro ⟨hn, hop, hvar, hbuf, h0, heq⟩
      exact ⟨hrow.mpr ⟨hop, h0⟩, hvar, hbuf, heq, hn⟩
    · rintro ⟨hm, hvar, hbuf, heq, hn⟩
      exact ⟨hn, (hrow.mp hm).1, hvar, hbuf, (hrow.mp hm).2, heq⟩

/-- Settles O4: each word through its decoder. -/
theorem sampleWordsDecode : Obligations.SampleWordsDecode := by
  unfold Obligations.SampleWordsDecode
  decide

end Sys2Proof
end

