-- ==== Sys2Proof/Proofs/ChecksumLaws.lean ====
section
/-! PROOF. The laws of the two checksum strategies (40_checksum.md section 5). The CRC is linear over xor; laws b
and c add that steps which shift no set bit out only shift. -/

namespace Sys2Proof.Machine

/-! ### Linearity -/

theorem crcBit_xor (p : CrcParams) (a b : Half) : crcBit p (a ^^^ b) = crcBit p a ^^^ crcBit p b := by
  have hshift : (a ^^^ b) <<< 1 = a <<< 1 ^^^ b <<< 1 := BitVec.shiftLeft_xor_distrib ..
  have hmsb : (a ^^^ b).msb = (a.msb ^^ b.msb) := BitVec.msb_xor
  cases ha : a.msb <;> cases hb : b.msb <;> rw [ha, hb] at hmsb
  · rw [crcBit_of_msb_false p ha, crcBit_of_msb_false p hb, crcBit_of_msb_false p hmsb, hshift]
  · rw [crcBit_of_msb_false p ha, crcBit_of_msb_true p hb, crcBit_of_msb_true p hmsb, hshift, BitVec.xor_assoc]
  · rw [crcBit_of_msb_true p ha, crcBit_of_msb_false p hb, crcBit_of_msb_true p hmsb, hshift, BitVec.xor_assoc,
      BitVec.xor_assoc, BitVec.xor_comm p.poly]
  · rw [crcBit_of_msb_true p ha, crcBit_of_msb_true p hb, crcBit_of_msb_false p hmsb, hshift, BitVec.xor_assoc,
      BitVec.xor_comm p.poly, BitVec.xor_assoc, BitVec.xor_self, BitVec.xor_zero]

theorem crcShift_xor (p : CrcParams) (n : Nat) (a b : Half) :
    crcShift p n (a ^^^ b) = crcShift p n a ^^^ crcShift p n b := by
  induction n generalizing a b with
  | zero => rfl
  | succ n ih => rw [crcShift, crcBit_xor, ih]; rfl

theorem crcShift_zero (p : CrcParams) (n : Nat) : crcShift p n 0 = 0 := by
  have h := crcShift_xor p n 0 0
  rwa [BitVec.xor_self, BitVec.xor_self] at h

theorem crcByte_xor (p : CrcParams) (a a' : Half) (b b' : Byte) :
    crcByte p (a ^^^ a') (b ^^^ b') = crcByte p a b ^^^ crcByte p a' b' := by
  rw [crcByte, crcByte, crcByte, ← crcShift_xor, BitVec.setWidth_xor, BitVec.shiftLeft_xor_distrib]
  ac_rfl

theorem crcByte_zero (p : CrcParams) : crcByte p 0 0 = 0 := crcShift_zero p 8

theorem crcFrom_cons (p : CrcParams) (a : Half) (b : Byte) (m : List Byte) :
    crcFrom p a (b :: m) = crcFrom p (crcByte p a b) m := rfl

theorem crcFrom_append (p : CrcParams) (a : Half) (m m' : List Byte) :
    crcFrom p a (m ++ m') = crcFrom p (crcFrom p a m) m' :=
  List.foldl_append

/-- Law e for two seeds. -/
theorem crcFrom_xor (p : CrcParams) (a a' : Half) {m m' : List Byte} (h : m.length = m'.length) :
    crcFrom p (a ^^^ a') (List.zipWith (· ^^^ ·) m m') = crcFrom p a m ^^^ crcFrom p a' m' := by
  induction m generalizing m' a a' with
  | nil =>
    obtain rfl := List.length_eq_zero_iff.mp h.symm
    rfl
  | cons b m ih =>
    cases m' with
    | nil => cases h
    | cons b' m' =>
      rw [List.zipWith_cons_cons, crcFrom_cons, crcByte_xor, ih _ _ (Nat.succ.inj h)]
      rfl

/-- Settles O23: linearity, with the seed against itself. -/
theorem crcIsAffine : Obligations.CrcIsAffine := by
  intro p m m' h
  have hlin := crcFrom_xor p p.seed p.seed h
  rwa [BitVec.xor_self] at hlin

/-! ### Zeros, and the byte 0x01 -/

/-- Law a. -/
theorem crcFrom_zeros (p : CrcParams) (k : Nat) : crcFrom p 0 (List.replicate k 0) = 0 := by
  induction k with
  | zero => rfl
  | succ k ih => rw [List.replicate_succ, crcFrom_cons, crcByte_zero, ih]

/-- While no set bit reaches bit 15 before its shift, the steps only shift. -/
theorem crcShift_of_lt (p : CrcParams) {n : Nat} {a : Half} (h : a.toNat * 2 ^ n < 2 ^ 16) :
    crcShift p n a = a <<< n := by
  induction n generalizing a with
  | zero => exact (BitVec.shiftLeft_zero a).symm
  | succ n ih =>
    have hpos : 0 < 2 ^ n := Nat.two_pow_pos n
    have hdouble : 2 * a.toNat * 2 ^ n < 2 ^ 16 := by rwa [Nat.mul_comm 2, Nat.mul_assoc, ← Nat.pow_succ']
    have hsmall : 2 * a.toNat < 2 ^ 16 := Nat.lt_of_le_of_lt (Nat.le_mul_of_pos_right _ hpos) hdouble
    have hshift : (a <<< 1).toNat = 2 * a.toNat := by rw [toNat_shiftLeft_one, Nat.mod_eq_of_lt hsmall]
    rw [crcShift, crcBit_of_msb_false p (BitVec.msb_eq_false_iff_two_mul_lt.mpr hsmall),
      ih (by rwa [hshift]), ← BitVec.shiftLeft_add, Nat.add_comm]

/-- Law b: seven shifts bring the set bit to the top, the eighth drops it. -/
theorem crcByte_zero_one (p : CrcParams) : crcByte p 0 1 = p.poly := by
  have hseven : crcShift p 7 0x0100 = 0x8000 := crcShift_of_lt p (by decide)
  rw [crcShift_eq_iterate] at hseven
  have htop : crcBit p 0x8000 = 0x8000 <<< 1 ^^^ p.poly := crcBit_of_msb_true p (by decide)
  calc crcByte p 0 1 = (crcBit p)^[8] 0x0100 := crcShift_eq_iterate p 8 _
    _ = crcBit p ((crcBit p)^[7] 0x0100) := Function.iterate_succ_apply' ..
    _ = 0x8000 <<< 1 ^^^ p.poly := by rw [hseven, htop]
    _ = p.poly := BitVec.zero_xor

/-- Settles O20: laws a and b from the zero seed. -/
theorem crcOfZerosAndOfOne : Obligations.CrcOfZerosAndOfOne := by
  intro p hseed
  refine ⟨fun k => ?_, ?_⟩
  · rw [crcAcc, hseed, crcFrom_zeros]
  · rw [crcAcc, hseed]
    exact crcByte_zero_one p

/-! ### The residue -/

/-- A byte equal to the accumulator's high byte cancels it, and the eight steps move the low byte up. -/
theorem crcByte_high (p : CrcParams) (a : Half) :
    crcByte p a (a.extractLsb' 8 8) = (a.extractLsb' 0 8).setWidth 16 <<< 8 := by
  have hcancel : a ^^^ ((a.extractLsb' 8 8).setWidth 16 <<< 8) = (a.extractLsb' 0 8).setWidth 16 := by
    rw [xor_shiftLeft_eight_eq_append, BitVec.xor_self]
    exact (BitVec.setWidth_eq_append (by decide)).symm
  rw [crcByte, hcancel, crcShift_of_lt]
  have hlow := (a.extractLsb' 0 8).isLt
  rw [BitVec.toNat_setWidth_of_le (by decide)]
  omega

/-- An accumulator absorbs its own two bytes to 0. -/
theorem crcFrom_checksumBytes_self (p : CrcParams) (a : Half) : crcFrom p a (checksumBytes a) = 0 := by
  show crcByte p (crcByte p a (a.extractLsb' 8 8)) (a.extractLsb' 0 8) = 0
  rw [crcByte_high, crcByte, BitVec.xor_self]
  exact crcShift_zero p 8

/-- A checksum's bytes under a mask. -/
theorem checksumBytes_xor (a b : Half) :
    checksumBytes (a ^^^ b) = List.zipWith (· ^^^ ·) (checksumBytes a) (checksumBytes b) := by
  simp [checksumBytes, BitVec.extractLsb'_xor]

/-- Law c: a masked checksum leaves what the mask leaves. -/
theorem crcFrom_checksumBytes_xor (p : CrcParams) (a x : Half) :
    crcFrom p a (checksumBytes (a ^^^ x)) = crcFrom p 0 (checksumBytes x) := by
  have hlin := crcFrom_xor p a 0 (m := checksumBytes a) (m' := checksumBytes x) rfl
  rw [show a ^^^ 0 = a from BitVec.xor_zero, ← checksumBytes_xor, crcFrom_checksumBytes_self] at hlin
  exact hlin.trans BitVec.zero_xor

theorem crcAcc_append_crc16 (p : CrcParams) (m : List Byte) :
    crcAcc p (m ++ checksumBytes (crc16 p m)) = crcFrom p 0 (checksumBytes p.xorOut) := by
  rw [crcAcc, crcFrom_append]
  exact crcFrom_checksumBytes_xor p (crcAcc p m) p.xorOut

/-- Law c of a frame with a zero mask. -/
theorem crcAcc_frame (p : CrcParams) (h : p.xorOut = 0) (h0 h1 h2 h3 : Byte) (a b : Word) :
    crcAcc p (frame p h0 h1 h2 h3 a b).toList = 0 := by
  rw [frame_toList, crcAcc_append_crc16, h]
  exact crcFrom_zeros p 2

/-- Settles O21. -/
theorem crcResidue : Obligations.CrcResidue := by
  refine fun p m => ⟨?_, crcAcc_append_crc16 p m, crcAcc_frame p⟩
  rw [crcAcc, crcFrom_append]
  exact crcFrom_checksumBytes_self p (crcAcc p m)

/-! ### Odd polynomials -/

/-- A linear map with trivial kernel is injective. -/
theorem injective_of_xor {f : Half → Half} (hlin : ∀ a b, f (a ^^^ b) = f a ^^^ f b)
    (hker : ∀ a, f a = 0 → a = 0) : Function.Injective f := by
  intro a b hab
  have hzero : f (a ^^^ b) = 0 := by
    rw [hlin, hab]
    exact BitVec.xor_self
  exact BitVec.xor_eq_zero_iff.mp (hker _ hzero)

/-- Bit 0 of an odd polynomial records the bit shifted out. -/
theorem crcBit_injective {p : CrcParams} (hodd : p.poly.getLsbD 0 = true) : Function.Injective (crcBit p) := by
  refine injective_of_xor (crcBit_xor p) fun a ha => ?_
  cases hm : a.msb with
  | true =>
    rw [crcBit_of_msb_true p hm] at ha
    have hbit := congrArg (BitVec.getLsbD · 0) ha
    exact absurd hodd (by simpa using hbit)
  | false =>
    rw [crcBit_of_msb_false p hm] at ha
    have hsmall := BitVec.msb_eq_false_iff_two_mul_lt.mp hm
    have hzero : 2 * a.toNat % 2 ^ 16 = 0 := by rw [← toNat_shiftLeft_one, ha]; rfl
    exact BitVec.eq_of_toNat_eq (show a.toNat = 0 by omega)

theorem crcShift_injective {p : CrcParams} (hodd : p.poly.getLsbD 0 = true) (n : Nat) :
    Function.Injective (crcShift p n) := by
  rw [show crcShift p n = (crcBit p)^[n] from funext (crcShift_eq_iterate p n)]
  exact (crcBit_injective hodd).iterate n

theorem crcByte_injective_left {p : CrcParams} (hodd : p.poly.getLsbD 0 = true) (b : Byte) :
    Function.Injective fun a => crcByte p a b :=
  fun _ _ h => (BitVec.xor_left_inj _).mp (crcShift_injective hodd 8 h)

theorem crcByte_injective_right {p : CrcParams} (hodd : p.poly.getLsbD 0 = true) (a : Half) :
    Function.Injective (crcByte p a) := by
  intro b c h
  have hshift := congrArg BitVec.toNat ((BitVec.xor_right_inj _).mp (crcShift_injective hodd 8 h))
  simp only [BitVec.toNat_shiftLeft, BitVec.toNat_setWidth, Nat.shiftLeft_eq] at hshift
  apply BitVec.eq_of_toNat_eq
  omega

/-- Law d over the bytes that follow. -/
theorem crcFrom_injective {p : CrcParams} (hodd : p.poly.getLsbD 0 = true) (m : List Byte) :
    Function.Injective fun a => crcFrom p a m := by
  induction m with
  | nil => exact fun _ _ h => h
  | cons b m ih => exact fun _ _ h => crcByte_injective_left hodd b (ih h)

/-- Settles O22: injective on a finite type is bijective; a changed byte changes the accumulator, and no later
byte undoes it. -/
theorem oddPolynomialDetectsOneByte : Obligations.OddPolynomialDetectsOneByte := by
  refine fun p hodd => ⟨fun b => Finite.injective_iff_bijective.mp (crcByte_injective_left hodd b),
    crcByte_injective_right hodd, fun pre post b c hne h => hne ?_⟩
  rw [crcAcc, crcAcc, crcFrom_append, crcFrom_append] at h
  exact crcByte_injective_right hodd _ (crcFrom_injective hodd post h)

/-! ### ADD8 -/

/-- R134 in numbers. -/
theorem toNat_addByte (a : Half) (b : Byte) : (addByte a b).toNat = (a.toNat + b.toNat) % 256 := by
  have ha : a.toNat % 2 ^ 8 = a.toNat % 256 := rfl
  simp only [addByte, BitVec.toNat_setWidth, BitVec.toNat_add]
  omega

theorem toNat_foldl_addByte {a : Half} (ha : a.toNat < 256) (m : List Byte) :
    (m.foldl addByte a).toNat = (a.toNat + (m.map BitVec.toNat).sum) % 256 := by
  induction m generalizing a with
  | nil => exact (Nat.mod_eq_of_lt ha).symm
  | cons b m ih =>
    rw [List.foldl_cons, ih (addByte_lt a b), toNat_addByte, List.map_cons, List.sum_cons, Nat.mod_add_mod,
      Nat.add_assoc]

theorem toNat_add8 (m : List Byte) : (add8 m).toNat = (m.map BitVec.toNat).sum % 256 := by
  rw [add8, toNat_foldl_addByte (by decide)]
  exact congrArg (· % 256) (Nat.zero_add _)

/-- Settles O24: a sum modulo 256 is additive and does not see the order of its terms. -/
theorem add8SumsModulo256 : Obligations.Add8SumsModulo256 := by
  refine fun m m' => ⟨toNat_add8 m, ?_, fun hperm => BitVec.eq_of_toNat_eq ?_⟩
  · rw [toNat_add8, toNat_add8, toNat_add8, List.map_append, List.sum_append, Nat.add_mod]
  · rw [toNat_add8, toNat_add8, (hperm.map BitVec.toNat).sum_eq]

end Sys2Proof.Machine
end

