-- ==== Sys2Proof/Proofs/StepForward.lean ====
section
/-! PROOF. `step` and `exec` forward: which agent acts for which oldest input, and which instructions have a
next state in every state (20_memory.md section 4; 30_encoding.md section 5). -/

namespace Sys2Proof.Machine

/-! ### The agent whose turn it is -/

theorem taken_of_cons {s : State} {x : Input} {rest : List Input} (h : s.inputs = x :: rest) :
    taken s = { s with inputs := rest } := by
  rw [taken, h]; rfl

/-- A legal host transaction. -/
theorem step_host_ok {s : State} {w : BitVec 99} {rest : List Input} {i : Instr}
    (hin : s.inputs = .host w :: rest) (hd : decode (.bus w) = .ok i) : step s = exec i (taken s) := by
  rw [taken_of_cons hin]
  simp only [step, turn, hin, hostTurn, hd]

/-- An illegal host transaction (R112). -/
theorem step_host_rejected {s : State} {w : BitVec 99} {rest : List Input} {why : Reject}
    (hin : s.inputs = .host w :: rest) (hd : decode (.bus w) = .rejected why) :
    step s = .next (raiseBusErr (taken s)) := by
  rw [taken_of_cons hin]
  simp only [step, turn, hin, hostTurn, hd]

/-- The sequencer, when no input waits or its turn is the oldest. -/
theorem step_seq {s : State} (hin : s.inputs = [] ∨ ∃ rest, s.inputs = .seq :: rest) :
    step s = exec s.phase.toInstr (taken s) := by
  obtain hnil | ⟨rest, hcons⟩ := hin
  · rw [taken_of_nil hnil, ← seqTurn_eq]
    simp only [step, turn, hnil]
  · rw [taken_of_cons hcons]
    simp only [step, turn, hcons, seqTurn_eq]

/-- An answer of the transport. -/
theorem step_transport {s : State} {n : Nat} {a : XferAnswer} {rest : List Input}
    (hin : s.inputs = .transport n a :: rest) : step s = .next (transportTurn n a (taken s)) := by
  rw [taken_of_cons hin]
  simp only [step, turn, hin]

/-- A reset. -/
theorem step_reset {s : State} {rest : List Input} (hin : s.inputs = .reset :: rest) :
    step s = .next (resetTurn (taken s)) := by
  rw [taken_of_cons hin]
  simp only [step, turn, hin]

/-- Settles O6: the oldest input names the agent; a phase decodes to its own instruction. -/
theorem stepRunsTheDecodedInstruction : Obligations.StepRunsTheDecodedInstruction := by
  refine ⟨fun s w rest hin => ⟨fun i hd => ?_, fun why hd => ?_⟩, fun s i hd => ?_⟩
  · rw [step_host_ok hin hd, taken_of_cons hin]
  · rw [step_host_rejected hin hd, taken_of_cons hin]
    rfl
  · rw [decode_phase_code] at hd
    cases hd
    refine ⟨fun hnil => ?_, fun rest hcons => ?_⟩
    · rw [step_seq (.inl hnil), taken_of_nil hnil]
    · rw [step_seq (.inr ⟨rest, hcons⟩), taken_of_cons hcons]

/-- Settles O60: `applyReset` writes every field R47 names, and TRAJ is built by writes. -/
theorem resetEventRestoresR47 : Obligations.ResetEventRestoresR47 := by
  intro s rest hin
  refine ⟨_, (step_reset hin).trans (congrArg _ (congrArg _ (taken_of_cons hin))), rfl, rfl, rfl, rfl, rfl, rfl,
    rfl, rfl, rfl, rfl, rfl, rfl, rfl, rfl, rfl, rfl, rfl, Mem.ofWrites_wf _ _⟩

/-! ### Which instructions complete -/

/-- A command completes in every state. -/
theorem execCommand_next (c : Command) (s : State) : ∃ t, execCommand c s = .next t := by
  cases c <;> exact ⟨_, rfl⟩

/-- A write to the command port completes whatever word it carries. -/
theorem writeCommand_next (wdata : DWord) (s : State) : ∃ t, writeCommand wdata s = .next t := by
  unfold writeCommand
  split
  · exact execCommand_next _ s
  · exact ⟨_, rfl⟩

/-- WR.REG completes in every state. -/
theorem exec_wrReg_next (r : Reg) (wdata : DWord) (s : State) : ∃ t, exec (.wrReg r wdata) s = .next t := by
  cases hw : writeAllowed r s with
  | false => exact ⟨_, exec_wrReg_refused wdata hw⟩
  | true =>
    by_cases hr : r = .cmd
    · subst hr
      obtain ⟨t, ht⟩ := writeCommand_next wdata s
      exact ⟨t, (exec_wrReg_cmd wdata (of_decide_eq_true hw)).trans ht⟩
    · exact ⟨_, exec_wrReg_store wdata hw hr⟩

/-- Only the two phases that index a memory can stop. -/
theorem exec_next {i : Instr} (henc : i ≠ .phEnc) (happend : i ≠ .phAppend) (s : State) :
    ∃ t, exec i s = .next t := by
  cases i with
  | wrReg r wdata => exact exec_wrReg_next r wdata s
  | phEnc => exact absurd rfl henc
  | phAppend => exact absurd rfl happend
  | _ => exact ⟨_, rfl⟩

/-- R214, inside TS. -/
theorem exec_phAppend {s : State} (h : s.tsLen.toNat + stampsPerIter s ≤ Config.tsCap) :
    exec .phAppend s = .next (appended s) := by
  have hstep := appendStep_eq_some (P := Config.params).mpr ⟨h, rfl⟩
  show execPhAppend s = _
  rw [execPhAppend, hstep]

/-- R205, outside TRAJ (log 14). -/
theorem exec_phEnc_fault {s : State} (h : Config.trajCap ≤ s.iter.toNat) :
    exec .phEnc s = .fault .trajIndexOutOfRange := by
  have hread : trajRead Config.params s.iter.toNat s = none := if_neg (Nat.not_lt.mpr h)
  show execPhEnc s = _
  rw [execPhEnc, encStep, hread]

/-- R214, outside TS (log 14). -/
theorem exec_phAppend_fault {s : State} (h : Config.tsCap < s.tsLen.toNat + stampsPerIter s) :
    exec .phAppend s = .fault .tsIndexOutOfRange := by
  have hstep : appendStep Config.params s = none :=
    Option.eq_none_iff_forall_ne_some.mpr fun t ht =>
      absurd (appendStep_eq_some.mp ht).1 (Nat.not_le.mpr h)
  show execPhAppend s = _
  rw [execPhAppend, hstep]

/-- Nothing is refused: the two phases that can stop stop with a fault. -/
theorem exec_ne_refused (i : Instr) (s : State) (r : Refusal) : exec i s ≠ .refused r := by
  intro h
  by_cases henc : i = .phEnc
  · subst henc
    obtain hlt | hle := Nat.lt_or_ge s.iter.toNat Config.trajCap
    · rw [exec_phEnc hlt] at h; cases h
    · rw [exec_phEnc_fault hle] at h; cases h
  · by_cases happend : i = .phAppend
    · subst happend
      obtain hlt | hle := Nat.lt_or_ge Config.tsCap (s.tsLen.toNat + stampsPerIter s)
      · rw [exec_phAppend_fault hlt] at h; cases h
      · rw [exec_phAppend hle] at h; cases h
    · obtain ⟨t, ht⟩ := exec_next henc happend s
      rw [ht] at h
      cases h

/-- Settles O47: the two index faults, and `exec_next` for every other instruction. -/
theorem faultsAreIndexFaults : Obligations.FaultsAreIndexFaults := by
  refine ⟨fun s => exec_phEnc_fault, fun s hcap => exec_phAppend_fault ?_, fun i s r h => ?_, exec_ne_refused⟩
  · rwa [stampsPerIter_eq]
  · by_contra hne
    obtain ⟨henc, happend⟩ := not_or.mp hne
    obtain ⟨t, ht⟩ := exec_next henc happend s
    rw [ht] at h
    cases h

end Sys2Proof.Machine
end

