-- ==== Sys2Proof/Proofs/Memories.lean ====
section
/-! PROOF. The canonical form of a memory determines it (log 5), and what the two writers of the memories,
WR.TRAJ and phase APPEND, leave of them (20_memory.md R72; 43_host_access.md R175; 42_scheduler.md R214). -/

namespace Sys2Proof.Machine

variable {w : Nat}

theorem Mem.read_cons_self (a : Nat) (v : BitVec w) (rest : Mem w) : Mem.read ((a, v) :: rest) a = v :=
  if_pos rfl

theorem Mem.read_cons_of_ne {a b : Nat} (v : BitVec w) (rest : Mem w) (h : b ≠ a) :
    Mem.read ((a, v) :: rest) b = rest.read b :=
  if_neg h

/-- A memory in canonical form that lists `a` first reads something there; one that starts above `a` does not. -/
theorem Mem.ne_of_lt_head {low low' a b : Nat} {v u : BitVec w} {rest rest' : Mem w}
    (h : Mem.wfFrom low ((a, v) :: rest) = true) (h' : Mem.wfFrom low' ((b, u) :: rest') = true) (hlt : a < b) :
    Mem.read ((a, v) :: rest) a ≠ Mem.read ((b, u) :: rest') a := by
  obtain ⟨-, hv, -⟩ := (Mem.wfFrom_cons ..).mp h
  obtain ⟨-, -, hrest⟩ := (Mem.wfFrom_cons ..).mp h'
  rw [Mem.read_cons_self, Mem.read_cons_of_ne u rest' (by omega), Mem.read_below rest' hrest (by omega)]
  exact hv

/-- The canonical form is extensional. -/
theorem Mem.eq_of_read_eq {low : Nat} {m m' : Mem w} (h : Mem.wfFrom low m = true)
    (h' : Mem.wfFrom low m' = true) (hread : ∀ a, m.read a = m'.read a) : m = m' := by
  induction m generalizing low m' with
  | nil =>
    cases m' with
    | nil => rfl
    | cons c rest' =>
      obtain ⟨-, hv, -⟩ := (Mem.wfFrom_cons _ c.1 c.2 rest').mp h'
      exact absurd ((hread c.1).trans (Mem.read_cons_self ..)).symm hv
  | cons c rest ih =>
    cases m' with
    | nil =>
      obtain ⟨-, hv, -⟩ := (Mem.wfFrom_cons _ c.1 c.2 rest).mp h
      exact absurd ((Mem.read_cons_self ..).symm.trans (hread c.1)) hv
    | cons c' rest' =>
      obtain ⟨a, v⟩ := c
      obtain ⟨b, u⟩ := c'
      obtain hlt | rfl | hgt := Nat.lt_trichotomy a b
      · exact absurd (hread a) (Mem.ne_of_lt_head h h' hlt)
      · obtain ⟨-, -, hrest⟩ := (Mem.wfFrom_cons ..).mp h
        obtain ⟨-, -, hrest'⟩ := (Mem.wfFrom_cons ..).mp h'
        have hvalue : v = u := by simpa only [Mem.read_cons_self] using hread a
        have htail : rest = rest' := ih hrest hrest' fun x => by
          by_cases hx : x = a
          · rw [Mem.read_below rest hrest (by omega), Mem.read_below rest' hrest' (by omega)]
          · simpa only [Mem.read_cons_of_ne _ _ hx] using hread x
        rw [hvalue, htail]
      · exact absurd (hread b).symm (Mem.ne_of_lt_head h' h hgt)

/-- Settles O15: read after write and the kept form are laws of `Mem.write`; extensionality is
`Mem.eq_of_read_eq`. -/
theorem memoryReadsTheLatestWrite : Obligations.MemoryReadsTheLatestWrite :=
  fun _ m _ h h' => ⟨fun a v b => Mem.read_write m a v h b, fun a v => Mem.wf_write m a v h,
    fun hread => Mem.eq_of_read_eq h h' hread⟩

/-! ### WR.TRAJ -/

/-- R175, in Idle inside TRAJ. -/
theorem exec_wrTraj_of_lt {idx : Word} {s : State} (wdata : DWord) (hlt : idx.toNat < Config.trajCap)
    (hidle : s.runState = .idle) :
    exec (.wrTraj idx wdata) s = .next (answerOk 0 (trajWrite idx.toNat (wdata.setWidth 32) s)) := by
  show execWrTraj idx wdata s = _
  rw [execWrTraj, writeTrajectory, if_neg (show ¬ Config.params.trajCap ≤ idx.toNat from Nat.not_le.mpr hlt),
    if_neg (not_not.mpr hidle)]

/-- R175, R173 (a): the bound and the lock. -/
theorem exec_wrTraj_refused {idx : Word} {s : State} (wdata : DWord)
    (h : Config.trajCap ≤ idx.toNat ∨ s.runState ≠ .idle) :
    exec (.wrTraj idx wdata) s = .next (raiseBusErr s) := by
  show execWrTraj idx wdata s = _
  rw [execWrTraj, writeTrajectory]
  by_cases hcap : Config.params.trajCap ≤ idx.toNat
  · rw [if_pos hcap]
  · rw [if_neg hcap, if_pos (h.resolve_left hcap)]

/-- Settles O12: inside the bound and the lock it is one `Mem.write`. -/
theorem trajectoryWriteStoresOneEntry : Obligations.TrajectoryWriteStoresOneEntry := by
  intro idx wdata s hwf
  refine ⟨fun hlt hidle => ⟨_, exec_wrTraj_of_lt wdata hlt hidle, Mem.wf_write _ _ _ hwf, fun a => ?_⟩,
    exec_wrTraj_refused wdata⟩
  show ((s.traj.write idx.toNat (wdata.setWidth 32)).read a).toNat = _
  rw [Mem.read_write _ _ _ hwf, apply_ite BitVec.toNat, BitVec.toNat_setWidth]

/-! ### The stamps of phase APPEND -/

/-- STAMPMODE in numbers (R31). -/
theorem twoStamps_iff (s : State) : twoStamps s = true ↔ s.cfg.toNat / 2 % 2 = 1 := by
  simp [twoStamps, BitVec.getLsbD, Nat.testBit_eq_decide_div_mod_eq]

/-- `1 + STAMPMODE` is 1 or 2. -/
theorem stampsPerIter_le (s : State) : stampsPerIter s ≤ 2 := by
  rw [stampsPerIter_eq]; omega

/-- The two entries an iteration may write. -/
theorem stampedTs_wf {s : State} (h : s.ts.wf = true) : (stampedTs s).wf = true := by
  unfold stampedTs
  split
  · exact Mem.wf_write _ _ _ (Mem.wf_write _ _ _ h)
  · exact Mem.wf_write _ _ _ h

theorem stampedTs_within {s : State} {cap : Nat} (h : s.ts.within cap = true)
    (hroom : s.tsLen.toNat + stampsPerIter s ≤ cap) : (stampedTs s).within cap = true := by
  unfold stampedTs
  unfold stampsPerIter at hroom
  split
  · rename_i htwo
    rw [if_pos htwo] at hroom
    exact Mem.within_write _ _ (Mem.within_write _ _ h (by omega)) (by omega)
  · rename_i hone
    rw [if_neg hone] at hroom
    exact Mem.within_write _ _ h (by omega)

/-- R214: TS_LEN stays a number of entries of TS. -/
theorem toNat_tsLen_appended {s : State} (hroom : s.tsLen.toNat + stampsPerIter s ≤ Config.tsCap) :
    (appended s).tsLen.toNat = s.tsLen.toNat + stampsPerIter s := by
  have hcap := Config.tsCap_lt
  have hk := stampsPerIter_le s
  show (s.tsLen + BitVec.ofNat 32 (stampsPerIter s)).toNat = _
  rw [BitVec.toNat_add, BitVec.toNat_ofNat, Nat.mod_eq_of_lt (a := stampsPerIter s) (by omega),
    Nat.mod_eq_of_lt (by omega)]

/-- R214: ITER stays a 32-bit number below TRAJ_LEN. -/
theorem toNat_iter_appended {s : State} (hlt : s.iter.toNat < s.trajLen.toNat) :
    (appended s).iter.toNat = s.iter.toNat + 1 := by
  have hbound := s.trajLen.isLt
  show (s.iter + 1).toNat = _
  rw [BitVec.toNat_add, show (1 : Word).toNat = 1 from rfl, Nat.mod_eq_of_lt (by omega)]

/-- R214: what TS reads as after the stamps. -/
theorem read_stampedTs {s : State} (hwf : s.ts.wf = true) (a : Nat) :
    (stampedTs s).read a =
      if twoStamps s = true ∧ a = s.tsLen.toNat + 1 then s.tPost
      else if a = s.tsLen.toNat then s.tPre else s.ts.read a := by
  have hone (b : Nat) := Mem.read_write s.ts s.tsLen.toNat s.tPre hwf b
  unfold stampedTs
  cases htwo : twoStamps s with
  | false => simp [hone]
  | true => simp [Mem.read_write _ _ _ (Mem.wf_write s.ts s.tsLen.toNat s.tPre hwf), hone]

/-- The stamps leave the entries below TS_LEN. -/
theorem read_stampedTs_of_lt {s : State} (hwf : s.ts.wf = true) {a : Nat} (ha : a < s.tsLen.toNat) :
    (stampedTs s).read a = s.ts.read a := by
  rw [read_stampedTs hwf, if_neg (by omega), if_neg (by omega)]

theorem read_stampedTs_tsLen {s : State} (hwf : s.ts.wf = true) :
    (stampedTs s).read s.tsLen.toNat = s.tPre := by
  rw [read_stampedTs hwf, if_neg (by omega), if_pos rfl]

theorem read_stampedTs_succ {s : State} (hwf : s.ts.wf = true) (htwo : twoStamps s = true) :
    (stampedTs s).read (s.tsLen.toNat + 1) = s.tPost := by
  rw [read_stampedTs hwf, if_pos ⟨htwo, rfl⟩]

/-- An entry of the longer series is an old one, T_PRE, or T_POST. -/
theorem read_appended_cases {s : State} (hwf : s.ts.wf = true) {a : Nat}
    (ha : a < s.tsLen.toNat + stampsPerIter s) :
    (a < s.tsLen.toNat ∧ (stampedTs s).read a = s.ts.read a) ∨
    (a = s.tsLen.toNat ∧ (stampedTs s).read a = s.tPre) ∨
    (a = s.tsLen.toNat + 1 ∧ (stampedTs s).read a = s.tPost) := by
  obtain hlt | heq | hgt := Nat.lt_trichotomy a s.tsLen.toNat
  · exact .inl ⟨hlt, read_stampedTs_of_lt hwf hlt⟩
  · subst heq
    exact .inr (.inl ⟨rfl, read_stampedTs_tsLen hwf⟩)
  · have htwo : twoStamps s = true := by
      by_contra hone
      rw [stampsPerIter, if_neg hone] at ha
      omega
    rw [stampsPerIter, if_pos htwo] at ha
    obtain rfl : a = s.tsLen.toNat + 1 := by omega
    exact .inr (.inr ⟨rfl, read_stampedTs_succ hwf htwo⟩)

/-- The stamps leave the entries from the new TS_LEN on. -/
theorem read_stampedTs_of_ge {s : State} (hwf : s.ts.wf = true) {a : Nat}
    (ha : s.tsLen.toNat + stampsPerIter s ≤ a) : (stampedTs s).read a = s.ts.read a := by
  have hpos : 1 ≤ stampsPerIter s := by rw [stampsPerIter_eq]; omega
  have htwo : ¬ (twoStamps s = true ∧ a = s.tsLen.toNat + 1) := by
    rintro ⟨htwo, rfl⟩
    rw [stampsPerIter, if_pos htwo] at ha
    omega
  rw [read_stampedTs hwf, if_neg htwo, if_neg (by omega)]

/-- Settles O46: the stamps are `stampedTs`, whose reads are `read_stampedTs`. -/
theorem appendStampsAndCounts : Obligations.AppendStampsAndCounts := by
  intro s hwf hroom
  rw [← stampsPerIter_eq] at hroom
  have hlen := toNat_tsLen_appended hroom
  refine ⟨stampedTs s, (appended s).tsLen, exec_phAppend hroom, ?_, stampedTs_wf hwf, read_stampedTs_tsLen hwf,
    fun htwo => read_stampedTs_succ hwf ((twoStamps_iff s).mpr htwo), fun a ha => ?_⟩
  · rw [hlen, stampsPerIter_eq]
  · rw [hlen] at ha
    obtain hlt | hge := ha
    · exact read_stampedTs_of_lt hwf hlt
    · exact read_stampedTs_of_ge hwf hge

end Sys2Proof.Machine
end

