-- ==== Sys2Proof/Proofs/PhaseSteps.lean ====
section
/-! PROOF. What a turn of the sequencer does, by the phase it is in: the part of `Did` that speaks of phases,
indexed by PHASE itself (42_scheduler.md R192, R197 to R215). -/

namespace Sys2Proof.Machine

/-- `PhaseDid p s t`: the sequencer's step of phase `p` made `t` of `s`. -/
inductive PhaseDid : Phase → State → State → Prop
  | idle {s} : PhaseDid .idle s s
  | check {s} : PhaseDid .check s (checkStep s)
  | wait {s} : PhaseDid .wait s (pollStep (nowValue s) (afterNow s))
  | pre {s} : PhaseDid .pre s { afterNow s with tPre := nowValue s, phase := .enc }
  | enc {s} (inside : s.iter.toNat < Config.trajCap) :
      PhaseDid .enc s (goto .xreq (encodeFrame Config.params.crc
        (loadSample Config.axisMap (s.traj.read s.iter.toNat) s)))
  | xreq {s} : PhaseDid .xreq s (requestStep s)
  | held {s} (unanswered : s.pending.bind (·.answer) = none) : PhaseDid .xwait s s
  | answered {s a} (answer : s.pending.bind (·.answer) = some a) : PhaseDid .xwait s (answerStep a s)
  | dec {s} : PhaseDid .dec s (goto .post (decodeFrame s))
  | post {s} : PhaseDid .post s { afterNow s with tPost := nowValue s, phase := .append }
  | append {s} (inside : s.tsLen.toNat + stampsPerIter s ≤ Config.tsCap) : PhaseDid .append s (appended s)
  | done {s} : PhaseDid .done s s

/-- The inversion of a phase's `exec`: no phase is a host operation or carries a command. -/
theorem exec_phaseDid {p : Phase} {s t : State} (h : exec p.toInstr s = .next t) : PhaseDid p s t := by
  have hhost := Phase.isHost_toInstr p
  have hcarries := carries_phase p
  have hdid := exec_did h
  generalize hi : p.toInstr = i at hdid hhost hcarries
  have hphase {q : Phase} (hq : p.toInstr = q.toInstr) : p = q := Phase.toInstr_inj hq
  cases hdid with
  | busErr hb => rw [hb] at hhost; cases hhost
  | readReg | readTraj | readTs | store | storeTraj => cases hhost
  | ckinit hc | ckbyte hc | ckbuf hc | encode hc | decode hc | start hc | configError hc =>
    rw [hcarries] at hc; cases hc
  | phIdle => cases hphase (q := .idle) hi; exact .idle
  | phCheck => cases hphase (q := .check) hi; exact .check
  | phWait => cases hphase (q := .wait) hi; exact .wait
  | phPre => cases hphase (q := .pre) hi; exact .pre
  | phEnc hin => cases hphase (q := .enc) hi; exact .enc hin
  | phXreq => cases hphase (q := .xreq) hi; exact .xreq
  | held hnone => cases hphase (q := .xwait) hi; exact .held hnone
  | answered hsome => cases hphase (q := .xwait) hi; exact .answered hsome
  | phDec => cases hphase (q := .dec) hi; exact .dec
  | phPost => cases hphase (q := .post) hi; exact .post
  | phAppend hin => cases hphase (q := .append) hi; exact .append hin
  | phDone => cases hphase (q := .done) hi; exact .done

end Sys2Proof.Machine
end

