-- ==== Sys2Proof/Proofs/InvariantHost.lean ====
section
/-! PROOF. The invariant under a host transaction (10_state.md R48 a to d). Each lemma changes what one kind of
instruction changes and lists the clauses of `Inv` that speak of it; the other clauses carry over. -/

namespace Sys2Proof.Machine

/-! ### What the invariant says in one scheduler state -/

/-- R48 (a), read from PHASE. -/
theorem Inv.runState_of_phase {s : State} (h : Inv s) {p : Phase} (hp : s.phase = p) :
    s.runState = phaseRunState p :=
  hp ▸ h.phase_state

/-- R28: only IDLE belongs to Idle. -/
theorem phase_of_phaseRunState_idle {p : Phase} (h : phaseRunState p = .idle) : p = .idle := by
  cases p with
  | idle => rfl
  | check | wait | pre | enc | xreq | xwait | dec | post | append | done => cases h

/-- R48 (a) in Idle. -/
theorem Inv.phase_of_idle {s : State} (h : Inv s) (hidle : s.runState = .idle) : s.phase = .idle :=
  phase_of_phaseRunState_idle (h.phase_state.symm.trans hidle)

/-- R45 (a): outside XWAIT no transfer is pending. -/
theorem Inv.pending_eq_none {s : State} (h : Inv s) (hp : s.phase ≠ .xwait) : s.pending = none :=
  Option.not_isSome_iff_eq_none.mp (mt h.transfer.mp hp)

/-- R45 (a): a transfer is pending only while Running. -/
theorem Inv.pending_of_not_running {s : State} (h : Inv s) (hr : s.runState ≠ .running) : s.pending = none :=
  h.pending_eq_none fun hp => hr (h.runState_of_phase hp)

/-- R48 (d) while Running. -/
theorem Inv.errCode_of_running {s : State} (h : Inv s) (hr : s.runState = .running) : s.errCode = 0 := by
  obtain h0 | ⟨-, hidle⟩ | ⟨-, hfin⟩ := h.error
  · exact h0
  · rw [hr] at hidle; cases hidle
  · rw [hr] at hfin; cases hfin

/-- R47: no stamp stands before a run. -/
theorem Inv.tsLen_of_idle {s : State} (h : Inv s) (hidle : s.runState = .idle) : s.tsLen.toNat = 0 := by
  rw [h.series, h.idle_iter hidle]; rfl

/-! ### Updates by the host -/

/-- The answer at the port is no part of the invariant. -/
theorem Inv.answered {s : State} (h : Inv s) (a : Option BusAnswer) : Inv { s with answer := a } :=
  { h with }

theorem Inv.answerOk {s : State} (h : Inv s) (d : DWord) : Inv (answerOk d s) := h.answered _

theorem Inv.raiseBusErr {s : State} (h : Inv s) : Inv (raiseBusErr s) := h.answered _

/-- What acts next is no part of the invariant. -/
theorem Inv.taken {s : State} (h : Inv s) : Inv (taken s) := { h with }

/-- A read of the clock is no part of the invariant. -/
theorem Inv.afterNow {s : State} (h : Inv s) : Inv (afterNow s) := { h with }

/-- In Idle the configuration and TRAJ are free, but for CFG's reserved bits and the form of TRAJ. -/
theorem Inv.reconfigured {s : State} (h : Inv s) (hidle : s.runState = .idle) {cfg : Word}
    (hcfg : cfg.toNat < 4) (period count trajLen : Word) (duration : DWord) {traj : Mem 32}
    (hwf : traj.wf = true) (hwithin : traj.within Config.trajCap = true) :
    Inv { s with cfg, period, count, trajLen, duration, traj } :=
  have hphase := h.phase_of_idle hidle
  { h with
    series := (h.tsLen_of_idle hidle).trans (by rw [h.idle_iter hidle]; rfl)
    valid := fun hn => absurd hidle hn
    index := fun hn => absurd hidle hn
    in_iteration := by rw [hphase]; nofun
    by_count := fun hn => absurd hidle hn
    by_duration := fun hn => absurd hidle hn
    deadline_eq := by rw [hphase]; nofun
    completed := by rw [hidle]; nofun
    cfg_reserved := hcfg
    traj_wf := hwf
    traj_within := hwithin }

/-- While no transfer is pending, TXBUF is free. -/
theorem Inv.withTxbuf {s : State} (h : Inv s) (hnone : s.pending = none) (f : Frame) :
    Inv { s with txbuf := f } :=
  { h with request := fun x hx => by rw [hnone] at hx; cases hx }

/-- The checksum registers are free, but for the high byte in the ADD8 strategy. -/
theorem Inv.withChecksum {s : State} (h : Inv s) {var : Variant} {a : Half}
    (ha : var = .add8 → a.toNat < 256) : Inv { s with ckVar := var, acc := a } :=
  { h with add8_high := ha }

/-- The codec's registers and RXBUF are no part of the invariant. -/
theorem Inv.withCodec {s : State} (h : Inv s) (h0 h1 h2 h3 : Byte) (a b c d : Word) (f : Frame) :
    Inv { s with hdr0 := h0, hdr1 := h1, hdr2 := h2, hdr3 := h3, valA := a, valB := b, decA := c,
                 decB := d, rxbuf := f } :=
  { h with }

/-- R31, R171: a store to CFG keeps two bits. -/
theorem cfg_store_lt (wdata : DWord) : ((wdata.setWidth 2).setWidth 32 : Word).toNat < 4 := by
  have hlow := (wdata.setWidth 2).isLt
  rw [BitVec.toNat_setWidth_of_le (by decide)]
  exact hlow

@[simp] theorem runState_writeReg (r : Reg) (wdata : DWord) (s : State) :
    (writeReg r wdata s).runState = s.runState := by
  cases r <;> rfl

/-- R173: the lock of a plain store. -/
theorem Inv.writeReg {s : State} (h : Inv s) {r : Reg} (wdata : DWord) (hw : writeAllowed r s = true) :
    Inv (writeReg r wdata s) := by
  have hlock : lockOpen (regLock r) s.runState = true := (Bool.and_eq_true_iff.mp hw).2
  cases r with
  | cfg => exact h.reconfigured (of_decide_eq_true hlock) (cfg_store_lt wdata) _ _ _ _ h.traj_wf h.traj_within
  | period | count | duration | trajLen =>
    exact h.reconfigured (of_decide_eq_true hlock) h.cfg_reserved _ _ _ _ h.traj_wf h.traj_within
  | hdr0 | hdr1 | hdr2 | hdr3 | valA | valB | rxbuf => exact h.withCodec ..
  | txbuf => exact h.withTxbuf (h.pending_of_not_running (of_decide_eq_true hlock)) _
  | cmd | status | iter | tsLen | errInfo | tStart | tPre | tPost | deadline | decA | decB | acc | cksum =>
    exact h

/-- R22: the ADD8 strategy starts and stays below 256. -/
theorem absorb_add8_lt (p : CrcParams) (m : List Byte) {a : Half} (ha : a.toNat < 256) :
    (m.foldl (absorb p .add8) a).toNat < 256 := by
  induction m generalizing a with
  | nil => exact ha
  | cons b m ih => exact ih (addByte_lt a b)

/-- R139: the codec leaves the CRC16 strategy, so the clause on ADD8 is vacuous. -/
theorem Inv.encodeFrame {s : State} (h : Inv s) (hnone : s.pending = none) (p : CrcParams) :
    Inv (encodeFrame p s) :=
  { h.withTxbuf hnone (Machine.encodeFrame p s).txbuf with add8_high := nofun }

/-- R196: START with a valid configuration. -/
theorem Inv.startRun {s : State} (h : Inv s) (hidle : s.runState = .idle) (hclean : s.errCode = 0)
    (hvalid : cfgValid Config.params s = true) : Inv (startRun s) :=
  have hcap : s.trajLen.toNat ≤ Config.trajCap := by
    simp only [cfgValid, Bool.and_eq_true, decide_eq_true_eq] at hvalid
    exact hvalid.1.2
  have hpending : s.pending = none := h.pending_of_not_running (by rw [hidle]; decide)
  { h with
    phase_state := rfl
    series := rfl
    series_cap := Nat.zero_le _
    idle_iter := nofun
    valid := fun _ => hvalid
    index := fun _ => ⟨Nat.zero_le _, hcap⟩
    in_iteration := nofun
    by_count := fun _ _ => ⟨Nat.zero_le _, nofun⟩
    by_duration := fun _ _ => ⟨nofun, .inl rfl⟩
    deadline_eq := nofun
    completed := nofun
    error := .inl hclean
    transfer := by show s.pending.isSome = true ↔ _; rw [hpending]; exact ⟨nofun, nofun⟩ }

/-- R195: START with an invalid configuration. -/
theorem Inv.raiseConfigError {s : State} (h : Inv s) (hidle : s.runState = .idle) :
    Inv (raiseConfigError s) :=
  { h with
    completed := fun hfin => by rw [show s.runState = .finished from hfin] at hidle; cases hidle
    error := .inr (.inl ⟨rfl, hidle⟩) }

/-- A host transaction keeps the invariant. -/
theorem Inv.of_host {i : Instr} {s t : State} (h : Inv s) (hi : isHost i = true) (hd : Did i s t) : Inv t := by
  cases hd with
  | busErr => exact h.raiseBusErr
  | readReg | readTraj | readTs => exact h.answerOk _
  | store hw => exact (h.writeReg _ hw).answerOk 0
  | storeTraj hin hidle =>
    exact (h.reconfigured hidle h.cfg_reserved _ _ _ _ (Mem.wf_write _ _ _ h.traj_wf)
      (Mem.within_write _ _ h.traj_within hin)).answerOk 0
  | ckinit =>
    refine (h.withChecksum fun hv => ?_).answerOk 0
    subst hv
    exact Nat.zero_lt_succ _
  | ckbyte =>
    refine (h.withChecksum (var := s.ckVar) fun hv => ?_).answerOk 0
    rw [hv]
    exact addByte_lt _ _
  | ckbuf =>
    refine (h.withChecksum fun hv => ?_).answerOk 0
    subst hv
    exact absorb_add8_lt _ _ (Nat.zero_lt_succ _)
  | encode _ hr => exact (h.encodeFrame (h.pending_of_not_running hr) _).answerOk 0
  | decode => exact (h.withCodec ..).answerOk 0
  | start _ hidle hclean hvalid => exact (h.startRun hidle hclean hvalid).answerOk 0
  | configError _ hidle => exact (h.raiseConfigError hidle).answerOk 0
  | phIdle | phCheck | phWait | phPre | phEnc | phXreq | held | answered | phDec | phPost | phAppend
  | phDone => cases hi

end Sys2Proof.Machine
end

