-- ==== Sys2Proof/Proofs/InvariantStep.lean ====
section
/-! PROOF. The invariant under the sequencer, the transport and a reset (10_state.md R48 a to d; 42_scheduler.md
R216), and from it: every step keeps it, and a state that meets it has a next state. -/

namespace Sys2Proof.Machine

/-! ### The phases -/

theorem goto_self {s : State} {p : Phase} (h : s.phase = p) : goto p s = s := by
  subst h; rfl

/-- An iteration proceeds (R204 to R213), a transfer being pending exactly in XWAIT. -/
theorem Inv.advanced {s : State} (h : Inv s) (hin : inIteration s.phase = true) {p : Phase}
    (hp : inIteration p = true) {x : Option Transfer} {n : Nat} (hx : x.isSome = true ↔ p = .xwait)
    (hreq : ∀ y, x = some y → y.out = s.txbuf ∧ y.serial < n) :
    Inv { s with phase := p, pending := x, xferCount := n } :=
  have hset {q : Phase} (hq : inIteration q = true) : deadlineSet q = true ∧ phaseRunState q = .running := by
    cases q with
    | pre | enc | xreq | xwait | dec | post | append => exact ⟨rfl, rfl⟩
    | idle | check | wait | done => cases hq
  have hrun : s.runState = .running := h.phase_state.trans (hset hin).2
  { h with
    phase_state := hrun.trans (hset hp).2.symm
    in_iteration := fun _ => h.in_iteration hin
    by_count := fun hn hb => ⟨(h.by_count hn hb).1, fun _ => (h.by_count hn hb).2 (hset hin).1⟩
    by_duration := fun hn hb => ⟨fun _ => (h.by_duration hn hb).1 hin, (h.by_duration hn hb).2⟩
    deadline_eq := fun _ => h.deadline_eq (hset hin).1
    transfer := hx
    request := hreq }

/-- An iteration proceeds with no transfer pending, before and after. -/
theorem Inv.goto {s : State} (h : Inv s) (hin : inIteration s.phase = true) (hne : s.phase ≠ .xwait)
    {p : Phase} (hp : inIteration p = true) (hpx : p ≠ .xwait) : Inv (goto p s) :=
  have hnone := h.pending_eq_none hne
  h.advanced hin hp (x := s.pending) (n := s.xferCount) (by rw [hnone]; exact ⟨nofun, fun e => absurd e hpx⟩)
    h.request

/-- A run ends in DONE, and its last iteration has been counted or is not (R200, R202, R211). -/
theorem Inv.ended {s : State} (h : Inv s) (hrun : s.runState = .running) {x : BitVec 4} (info : Word)
    (herr : x = 0 ∨ x = 3) (hdone : x = 0 → byDuration s = false → s.iter = s.count) :
    Inv { s with runState := .finished, phase := .done, pending := none, errCode := x, errInfo := info } :=
  have hn : s.runState ≠ .idle := by rw [hrun]; decide
  { h with
    phase_state := rfl
    idle_iter := nofun
    valid := fun _ => h.valid hn
    index := fun _ => h.index hn
    in_iteration := nofun
    by_count := fun _ hb => ⟨(h.by_count hn hb).1, nofun⟩
    by_duration := fun _ hb => ⟨nofun, (h.by_duration hn hb).2⟩
    deadline_eq := nofun
    completed := fun _ => hdone
    error := herr.imp_right fun h3 => .inr ⟨h3, rfl⟩
    transfer := ⟨nofun, nofun⟩
    request := nofun }

/-- Normal termination (R200, R202). -/
theorem Inv.finishRun {s : State} (h : Inv s) (hrun : s.runState = .running) (hne : s.phase ≠ .xwait)
    (hdone : byDuration s = false → s.iter = s.count) : Inv (finishRun s) := by
  have hended := h.ended hrun s.errInfo (.inl (h.errCode_of_running hrun)) fun _ => hdone
  rw [← h.pending_eq_none hne] at hended
  exact hended

/-- R198. -/
theorem Inv.checkStep {s : State} (h : Inv s) (hp : s.phase = .check) : Inv (checkStep s) := by
  have hrun := h.runState_of_phase hp
  have hne : s.phase ≠ .xwait := by rw [hp]; decide
  obtain ⟨-, hlast, heq⟩ | ⟨hmore, heq⟩ := checkStep_cases s
  · rw [heq]
    exact h.finishRun hrun hne fun _ => hlast
  · rw [heq]
    exact { h with
      phase_state := hrun
      in_iteration := nofun
      by_count := fun hn hb =>
        have hcount := (h.by_count hn hb).1
        have hlt : s.iter.toNat < s.count.toNat := by
          obtain hd | hc := hmore
          · rw [show byDuration s = false from hb] at hd; cases hd
          · exact Nat.lt_of_le_of_ne hcount (mt BitVec.eq_of_toNat_eq hc)
        ⟨hcount, fun _ => hlt⟩
      by_duration := fun hn hb => ⟨nofun, (h.by_duration hn hb).2⟩
      deadline_eq := fun _ => toNat_setWidth_mul_setWidth s.iter s.period
      transfer := by show s.pending.isSome = true ↔ _; rw [h.pending_eq_none hne]; exact ⟨nofun, nofun⟩ }

/-- R216, R217: where the poll goes to PRE, the iteration is inside TRAJ and its stamps fit. -/
theorem Inv.fits_of_due {s : State} (h : Inv s) (hp : s.phase = .wait) {e : DWord}
    (hon : ¬ (byDuration s = true ∧ s.duration ≤ e)) (hdue : s.deadline ≤ e) :
    (s.iter.toNat < s.trajLen.toNat ∧ stampsPerIter s * (s.iter.toNat + 1) ≤ Config.tsCap) ∧
      (byDuration s = true → s.iter.toNat * s.period.toNat < s.duration.toNat) := by
  have hn : s.runState ≠ .idle := by rw [h.runState_of_phase hp]; decide
  have hset : deadlineSet s.phase = true := by rw [hp]; rfl
  cases hb : byDuration s with
  | false =>
    obtain ⟨-, -, hlen, hcap⟩ := (cfgValid_of_byCount hb).mp (h.valid hn)
    have hlt := (h.by_count hn hb).2 hset
    exact ⟨⟨hlt.trans_le hlen, (Nat.mul_le_mul_left _ hlt).trans hcap⟩, nofun⟩
  | true =>
    obtain ⟨-, -, hlen, hcap⟩ := (cfgValid_of_byDuration hb).mp (h.valid hn)
    have hend : e < s.duration := BitVec.not_le.mp fun hle => hon ⟨hb, hle⟩
    have hlt : s.iter.toNat * s.period.toNat < s.duration.toNat :=
      h.deadline_eq hset ▸ Nat.lt_of_le_of_lt hdue hend
    have hroom : s.iter.toNat < Config.tsCap / stampsPerIter s :=
      Nat.lt_of_mul_lt_mul_right (hlt.trans_le hcap)
    exact ⟨⟨Nat.lt_of_mul_lt_mul_right (hlt.trans_le hlen),
      (Nat.mul_le_mul_left _ hroom).trans (Nat.mul_div_le _ _)⟩, fun _ => hlt⟩

/-- R201. -/
theorem Inv.pollStep {s : State} (h : Inv s) (hp : s.phase = .wait) (n : DWord) : Inv (pollStep n s) := by
  have hrun := h.runState_of_phase hp
  have hset : deadlineSet s.phase = true := by rw [hp]; rfl
  have hne : s.phase ≠ .xwait := by rw [hp]; decide
  obtain ⟨hend, -, heq⟩ | ⟨hon, hdue, heq⟩ | ⟨-, -, heq⟩ := pollStep_cases n s
  · rw [heq]
    exact h.finishRun hrun hne fun hb => by rw [hend] at hb; cases hb
  · rw [heq]
    obtain ⟨hfits, hearly⟩ := h.fits_of_due hp hon hdue
    exact { h with
      phase_state := hrun
      in_iteration := fun _ => hfits
      by_count := fun hn hb => ⟨(h.by_count hn hb).1, fun _ => (h.by_count hn hb).2 hset⟩
      by_duration := fun hn hb => ⟨fun _ => hearly hb, (h.by_duration hn hb).2⟩
      deadline_eq := fun _ => h.deadline_eq hset
      transfer := by show s.pending.isSome = true ↔ _; rw [h.pending_eq_none hne]; exact ⟨nofun, nofun⟩ }
  · rw [heq, goto_self hp]
    exact h

/-- R209, R211. -/
theorem Inv.answerStep {s : State} (h : Inv s) (hp : s.phase = .xwait) (a : XferAnswer) :
    Inv (answerStep a s) := by
  have hin : inIteration s.phase = true := by rw [hp]; rfl
  obtain ⟨-, heq⟩ | ⟨-, heq⟩ := answerStep_cases a s
  · rw [heq]
    exact { h.advanced hin (p := .dec) (x := none) (n := s.xferCount) rfl ⟨nofun, nofun⟩ nofun with }
  · rw [heq]
    exact { h.ended (h.runState_of_phase hp) s.iter (.inr rfl) (fun h3 => absurd h3 (by decide)) with }

/-- R48 (b), (c): the stamps of the current iteration fit. -/
theorem Inv.stamps_fit {s : State} (h : Inv s) (hin : inIteration s.phase = true) :
    s.tsLen.toNat + stampsPerIter s ≤ Config.tsCap := by
  rw [h.series, ← Nat.mul_succ]
  exact (h.in_iteration hin).2

/-- R214. -/
theorem Inv.appended {s : State} (h : Inv s) (hp : s.phase = .append) : Inv (appended s) :=
  have hrun := h.runState_of_phase hp
  have hn : s.runState ≠ .idle := by rw [hrun]; decide
  have hin : inIteration s.phase = true := by rw [hp]; rfl
  have hset : deadlineSet s.phase = true := by rw [hp]; rfl
  have hlt := (h.in_iteration hin).1
  have hroom := h.stamps_fit hin
  have hlen := toNat_tsLen_appended hroom
  have hiter := toNat_iter_appended hlt
  have hnone := h.pending_eq_none (by rw [hp]; decide)
  { h with
    phase_state := hrun
    series := by
      show _ = stampsPerIter s * _
      rw [hlen, hiter, h.series, Nat.mul_succ]
    series_cap := hlen.trans_le hroom
    idle_iter := fun hidle => absurd hidle hn
    index := fun _ => ⟨hiter.trans_le hlt, (h.index hn).2⟩
    in_iteration := nofun
    by_count := fun _ hb => ⟨hiter.trans_le ((h.by_count hn hb).2 hset), nofun⟩
    by_duration := fun _ hb => ⟨nofun, .inr (by
      rw [hiter, Nat.add_sub_cancel]
      exact (h.by_duration hn hb).1 hin)⟩
    deadline_eq := nofun
    completed := fun hfin => by rw [show s.runState = .finished from hfin] at hrun; cases hrun
    transfer := by show s.pending.isSome = true ↔ _; rw [hnone]; exact ⟨nofun, nofun⟩
    ts_wf := stampedTs_wf h.ts_wf
    ts_within := stampedTs_within h.ts_within hroom }

/-- The sequencer's turn keeps the invariant. -/
theorem Inv.of_phase {s t : State} (h : Inv s) (hd : PhaseDid s.phase s t) : Inv t := by
  generalize hp : s.phase = p at hd
  have hin (hi : inIteration p = true) : inIteration s.phase = true := hp ▸ hi
  have hne (hx : p ≠ .xwait) : s.phase ≠ .xwait := hp ▸ hx
  cases hd with
  | idle | held | done => exact h
  | check => exact h.checkStep hp
  | wait => exact h.afterNow.pollStep hp _
  | pre => exact { h.goto (hin rfl) (hne nofun) (p := .enc) rfl nofun with }
  | enc =>
    have hgo := h.goto (hin rfl) (hne nofun) (p := .xreq) rfl nofun
    rw [loadSample_eq]
    exact (hgo.withCodec ..).encodeFrame (h.pending_eq_none (hne nofun)) _
  | xreq =>
    exact { h.advanced (hin rfl) (p := .xwait) rfl ⟨fun _ => rfl, fun _ => rfl⟩
      (fun y hy => by cases hy; exact ⟨rfl, Nat.lt_succ_self _⟩) with }
  | answered => exact h.answerStep hp _
  | dec => exact { h.goto (hin rfl) (hne nofun) (p := .post) rfl nofun with }
  | post => exact { h.goto (hin rfl) (hne nofun) (p := .append) rfl nofun with }
  | append => exact h.appended hp

/-! ### The transport and the reset -/

/-- R86: an answer waits in the pending transfer, whose data and number stay. -/
theorem Inv.transportTurn {s : State} (h : Inv s) (n : Nat) (a : XferAnswer) : Inv (transportTurn n a s) := by
  rw [transportTurn_eq]
  obtain hsame | ⟨x, hx, -, -, hnew⟩ := transportTurn_pending n a s
  · rw [hsame]
    exact h
  · rw [hnew]
    have hwait : s.phase = .xwait := h.transfer.mp (by rw [hx]; rfl)
    exact { h with
      transfer := ⟨fun _ => hwait, fun _ => rfl⟩
      request := fun y hy => by cases hy; exact h.request x hx }

/-- R47: the reset values meet the invariant, whatever the unspecified cells hold. -/
theorem inv_applyReset {s : State} (hwf : s.ts.wf = true) (hwithin : s.ts.within Config.tsCap = true)
    (d : ResetData) : Inv (applyReset Config.params d s) where
  phase_state := rfl
  series := rfl
  series_cap := Nat.zero_le _
  idle_iter _ := rfl
  valid hn := absurd rfl hn
  index hn := absurd rfl hn
  in_iteration := nofun
  by_count hn := absurd rfl hn
  by_duration hn := absurd rfl hn
  deadline_eq := nofun
  completed := nofun
  error := .inl rfl
  transfer := ⟨nofun, nofun⟩
  request := nofun
  cfg_reserved := show (0 : Word).toNat < 4 by decide
  add8_high := nofun
  traj_wf := Mem.ofWrites_wf _ _
  traj_within := Mem.ofWrites_within _ _
  ts_wf := hwf
  ts_within := hwithin

/-- Settles O51: one lemma per agent, after `step_cases`. -/
theorem stepKeepsTheInvariant : Obligations.StepKeepsTheInvariant := by
  intro s t h hstep
  obtain ⟨w, rest, i, -, -, hi, hx⟩ | ⟨w, rest, why, -, -, rfl⟩ | ⟨-, hx⟩ | ⟨n, a, rest, -, rfl⟩ |
    ⟨rest, -, rfl⟩ := step_cases hstep
  · exact h.taken.of_host hi (exec_did hx)
  · exact h.taken.raiseBusErr
  · exact h.taken.of_phase (exec_phaseDid hx)
  · exact h.taken.transportTurn n a
  · exact inv_applyReset (s := taken s) h.ts_wf h.ts_within _

end Sys2Proof.Machine
end

