-- ==== Sys2Proof/Proofs/ClockInvariant.lean ====
section
/-! PROOF. The clock's law over the stamps (10_state.md R48 e and f; 20_memory.md R84) under every agent, and
the two invariants after reset. In Idle the law says nothing; out of Idle the host cannot touch what it speaks
of. -/

namespace Sys2Proof.Machine

/-! ### Idle -/

/-- In Idle no stamp is readable and no iteration counted. -/
theorem Inv.timeInv_of_idle {s : State} (h : Inv s) (hidle : s.runState = .idle) : TimeInv s := by
  have hphase := h.phase_of_idle hidle
  have hiter : s.iter.toNat = 0 := congrArg BitVec.toNat (h.idle_iter hidle)
  have hlen := h.tsLen_of_idle hidle
  have hno {n m : Nat} (hm : m = 0) (hlt : n < m) : False := Nat.not_lt_zero n (hm ▸ hlt)
  constructor
  case start_past => exact fun hn => absurd hidle hn
  case stamps_past => exact fun a ha => (hno hlen ha).elim
  case ordered => exact fun a b _ hb => (hno hlen hb).elim
  case on_time => exact fun i hi => (hno hiter hi).elim
  all_goals rw [hphase]; nofun

/-- Settles O50: `State.reset` and a reset event agree in the fields the invariant speaks of, and in Idle the
clock's law says nothing. -/
theorem resetMeetsTheInvariants : Obligations.ResetMeetsTheInvariants := by
  have hinv : Inv State.reset := { inv_applyReset (s := State.reset) rfl rfl zeroResetData with }
  exact ⟨hinv, hinv.timeInv_of_idle rfl⟩

/-! ### The host -/

/-- R84: the clock may only have gone on. -/
theorem TimeInv.afterNow {s : State} (h : TimeInv s) : TimeInv (afterNow s) :=
  have hlaw := clkLast_le_nowValue s
  { h with
    start_past := fun hn => BitVec.le_trans (h.start_past hn) hlaw
    stamps_past := fun a ha => BitVec.le_trans (h.stamps_past a ha) hlaw
    reached := fun hp => (h.reached hp).trans hlaw
    pre_past := fun hp => BitVec.le_trans (h.pre_past hp) hlaw
    post_late := fun hp => ⟨(h.post_late hp).1, BitVec.le_trans (h.post_late hp).2 hlaw⟩ }

/-- The answer at the port is no part of the law. -/
theorem TimeInv.answered {s : State} (h : TimeInv s) (a : Option BusAnswer) :
    TimeInv { s with answer := a } :=
  { h with }

/-- R196: the stamps of a run that begins are those to come. -/
theorem timeInv_startRun (s : State) : TimeInv (startRun s) where
  start_past _ := BitVec.le_refl _
  stamps_past a ha := absurd ha (Nat.not_lt_zero a)
  ordered _ b _ hb := absurd hb (Nat.not_lt_zero b)
  reached := nofun
  pre_late := nofun
  pre_past := nofun
  pre_last := nofun
  post_late := nofun
  on_time i hi := absurd hi (Nat.not_lt_zero i)

/-- R173: out of Idle a plain store reaches only the codec's registers. -/
theorem TimeInv.writeReg {s : State} (h : TimeInv s) {r : Reg} (wdata : DWord) (hn : s.runState ≠ .idle)
    (hw : writeAllowed r s = true) : TimeInv (writeReg r wdata s) := by
  have hlock : lockOpen (regLock r) s.runState = true := (Bool.and_eq_true_iff.mp hw).2
  cases r with
  | cfg | period | count | duration | trajLen => exact absurd (of_decide_eq_true hlock) hn
  | hdr0 | hdr1 | hdr2 | hdr3 | valA | valB | txbuf | rxbuf => exact { h with }
  | cmd | status | iter | tsLen | errInfo | tStart | tPre | tPost | deadline | decA | decB | acc | cksum =>
    exact h

/-- Out of Idle a host transaction keeps the law, and START sets it up. -/
theorem TimeInv.of_host {i : Instr} {s t : State} (h : TimeInv s) (hi : isHost i = true)
    (hn : t.runState ≠ .idle) (hd : Did i s t) : TimeInv t := by
  cases hd with
  | busErr | readReg | readTraj | readTs => exact h.answered _
  | store hw =>
    have hns : s.runState ≠ .idle := fun hidle => hn ((runState_writeReg _ _ s).trans hidle)
    exact (h.writeReg _ hns hw).answered _
  | storeTraj _ hidle => exact absurd hidle hn
  | ckinit | ckbyte | ckbuf | encode | decode => exact { h with }
  | start => exact (timeInv_startRun s).answered _
  | configError _ hidle => exact absurd hidle hn
  | phIdle | phCheck | phWait | phPre | phEnc | phXreq | held | answered | phDec | phPost | phAppend
  | phDone => cases hi

/-! ### The phases -/

/-- Where neither T_PRE nor the poll that reached the deadline is the current iteration's, the law speaks of the
series and T_START alone. -/
theorem TimeInv.unstamped {s : State} (h : TimeInv s) (hn : s.runState ≠ .idle) {p : Phase}
    (hstamped : preStamped p = false) (hpre : p ≠ .pre) (r : RunState) (d : DWord) :
    TimeInv { s with phase := p, runState := r, deadline := d } :=
  have hno {q : Prop} (hp : preStamped p = true) : q := by rw [hstamped] at hp; cases hp
  { h with
    start_past := fun _ => h.start_past hn
    reached := fun hp => absurd hp hpre
    pre_late := hno
    pre_past := hno
    pre_last := hno
    post_late := fun hp => hno (by rw [show p = .append from hp]; rfl) }

/-- From ENC to POST the strobe of T_PRE stands. -/
theorem TimeInv.stamped {s : State} (h : TimeInv s) (hs : preStamped s.phase = true) {p : Phase}
    (hpre : p ≠ .pre) (happend : p ≠ .append) : TimeInv (goto p s) :=
  { h with
    reached := fun hp => absurd hp hpre
    pre_late := fun _ => h.pre_late hs
    pre_past := fun _ => h.pre_past hs
    pre_last := fun _ => h.pre_last hs
    post_late := fun hp => absurd hp happend }

/-- R201: a poll that goes to PRE has reached the deadline. -/
theorem TimeInv.pollStep {s : State} (h : TimeInv s) (hn : s.runState ≠ .idle) (hp : s.phase = .wait) :
    TimeInv (pollStep s.clkLast s) := by
  obtain ⟨-, -, heq⟩ | ⟨-, hdue, heq⟩ | ⟨-, -, heq⟩ := pollStep_cases s.clkLast s
  · rw [heq]
    exact { h.unstamped hn (p := .done) rfl nofun .finished s.deadline with }
  · rw [heq]
    exact { h with
      reached := fun _ => toNat_add_toNat_le_of_le_sub hdue (h.start_past hn)
      pre_late := nofun
      pre_past := nofun
      pre_last := nofun
      post_late := nofun }
  · rw [heq, goto_self hp]
    exact h

/-- R204: the strobe is not below the poll that reached the deadline. -/
theorem TimeInv.strobePre {s : State} (h : TimeInv s) (hp : s.phase = .pre) :
    TimeInv { s with tPre := s.clkLast, phase := .enc } :=
  { h with
    reached := nofun
    pre_late := fun _ => h.reached hp
    pre_past := fun _ => BitVec.le_refl _
    pre_last := fun _ => h.stamps_past
    post_late := nofun }

/-- R213: the strobe is not below T_PRE. -/
theorem TimeInv.strobePost {s : State} (h : TimeInv s) (hp : s.phase = .post) :
    TimeInv { s with tPost := s.clkLast, phase := .append } :=
  have hs : preStamped s.phase = true := by rw [hp]; rfl
  { h with
    reached := nofun
    pre_late := fun _ => h.pre_late hs
    pre_past := fun _ => h.pre_past hs
    pre_last := fun _ => h.pre_last hs
    post_late := fun _ => ⟨h.pre_past hs, BitVec.le_refl _⟩ }

/-! ### The series -/

/-- R214: APPEND keeps the law, T_PRE being the `t_pre` of the iteration it counts. -/
theorem TimeInv.appended {s : State} (h : TimeInv s) (hinv : Inv s) (hp : s.phase = .append) :
    TimeInv (appended s) := by
  have hs : preStamped s.phase = true := by rw [hp]; rfl
  have hin : inIteration s.phase = true := by rw [hp]; rfl
  have hlen := toNat_tsLen_appended (hinv.stamps_fit hin)
  have hiter := toNat_iter_appended (hinv.in_iteration hin).1
  obtain ⟨hpost, hpostPast⟩ := h.post_late hp
  have hread {a : Nat} (ha : a < (Machine.appended s).tsLen.toNat) :=
    read_appended_cases hinv.ts_wf (hlen ▸ ha)
  have hpre {a : Nat} (ha : a ≤ s.tsLen.toNat) : (stampedTs s).read a ≤ s.tPre := by
    obtain hlt | rfl := Nat.lt_or_eq_of_le ha
    · exact read_stampedTs_of_lt hinv.ts_wf hlt ▸ h.pre_last hs a hlt
    · exact read_stampedTs_tsLen hinv.ts_wf ▸ BitVec.le_refl _
  constructor
  case start_past => exact h.start_past
  case stamps_past =>
    intro a ha
    show (stampedTs s).read a ≤ s.clkLast
    obtain ⟨hlt, hr⟩ | ⟨-, hr⟩ | ⟨-, hr⟩ := hread ha
    · exact hr ▸ h.stamps_past a hlt
    · exact hr ▸ h.pre_past hs
    · exact hr ▸ hpostPast
  case ordered =>
    intro a b hab hb
    show (stampedTs s).read a ≤ (stampedTs s).read b
    obtain ⟨hlt, hr⟩ | ⟨rfl, hr⟩ | ⟨rfl, hr⟩ := hread hb
    · rw [hr, read_stampedTs_of_lt hinv.ts_wf (Nat.lt_of_le_of_lt hab hlt)]
      exact h.ordered a b hab hlt
    · exact hr ▸ hpre hab
    · obtain hlt | rfl := Nat.lt_or_eq_of_le hab
      · exact hr ▸ BitVec.le_trans (hpre (Nat.le_of_lt_succ hlt)) hpost
      · exact BitVec.le_refl _
  case on_time =>
    intro i hi
    show i * s.period.toNat + s.tStart.toNat ≤ ((stampedTs s).read (stampsPerIter s * i)).toNat
    obtain hlt | rfl := Nat.lt_succ_iff_lt_or_eq.mp (hiter ▸ hi)
    · rw [read_stampedTs_of_lt hinv.ts_wf]
      · exact h.on_time i hlt
      · rw [hinv.series]
        exact Nat.mul_lt_mul_of_pos_left hlt (by rw [stampsPerIter_eq]; omega)
    · rw [← hinv.series, read_stampedTs_tsLen hinv.ts_wf, ← hinv.deadline_eq (by rw [hp]; rfl)]
      exact h.pre_late hs
  all_goals exact nofun

/-- The sequencer's turn keeps the law. -/
theorem TimeInv.of_phase {s t : State} (h : TimeInv s) (hinv : Inv s) (hd : PhaseDid s.phase s t) :
    TimeInv t := by
  have hrun := hinv.phase_state
  generalize hp : s.phase = p at hd
  have hn (hr : phaseRunState p = .running) : s.runState ≠ .idle := by rw [hrun, hp, hr]; nofun
  have hs (hs : preStamped p = true) : preStamped s.phase = true := hp ▸ hs
  cases hd with
  | idle | held | done => exact h
  | check =>
    obtain ⟨-, -, heq⟩ | ⟨-, heq⟩ := checkStep_cases s
    · rw [heq]
      exact { h.unstamped (hn rfl) (p := .done) rfl nofun .finished s.deadline with }
    · rw [heq]
      exact { h.unstamped (hn rfl) (p := .wait) rfl nofun s.runState _ with }
  | wait => exact h.afterNow.pollStep (hn rfl) hp
  | pre => exact h.afterNow.strobePre hp
  | enc =>
    rw [loadSample_eq]
    exact { h.stamped (hs rfl) (p := .xreq) nofun nofun with }
  | xreq => exact { h.stamped (hs rfl) (p := .xwait) nofun nofun with }
  | answered =>
    obtain ⟨-, heq⟩ | ⟨-, heq⟩ := answerStep_cases _ s
    · rw [heq]
      exact { h.stamped (hs rfl) (p := .dec) nofun nofun with }
    · rw [heq]
      exact { h.unstamped (hn rfl) (p := .done) rfl nofun .finished s.deadline with }
  | dec => exact { h.stamped (hs rfl) (p := .post) nofun nofun with }
  | post => exact h.afterNow.strobePost hp
  | append => exact h.appended hinv hp

/-- Settles O53: the next state meets `Inv`, so in Idle there is nothing to show; out of Idle, one lemma per
agent. -/
theorem stepKeepsTheClockLaw : Obligations.StepKeepsTheClockLaw := by
  intro s t hinv h hstep
  have hinvt : Inv t := stepKeepsTheInvariant s t hinv hstep
  by_cases hidle : t.runState = .idle
  · exact hinvt.timeInv_of_idle hidle
  have htaken : TimeInv (taken s) := { h with }
  obtain ⟨w, rest, i, -, -, hi, hx⟩ | ⟨w, rest, why, -, -, rfl⟩ | ⟨-, hx⟩ | ⟨n, a, rest, -, rfl⟩ |
    ⟨rest, -, rfl⟩ := step_cases hstep
  · exact htaken.of_host hi hidle (exec_did hx)
  · exact htaken.answered _
  · exact htaken.of_phase hinv.taken (exec_phaseDid hx)
  · rw [transportTurn_eq]
    exact { htaken with }
  · exact absurd rfl hidle

end Sys2Proof.Machine
end

