-- ==== Sys2Proof/Proofs/Commands.lean ====
section
/-! PROOF. The six commands (40_checksum.md section 4; 41_framecodec.md section 2; 42_scheduler.md R193 to
R195): what each does where it is accepted, and where it is refused. -/

namespace Sys2Proof.Machine

/-! ### START refused, and with an invalid configuration -/

/-- R193: START asks for Idle and for no earlier error. -/
theorem exec_start_refused {s : State} (h : s.runState ≠ .idle ∨ s.errCode ≠ 0) :
    exec .start s = .next (raiseBusErr s) := by
  show Host.Outcome.next (startCommand Config.params s) = _
  rw [startCommand]
  by_cases hidle : s.runState = .idle
  · rw [if_neg (not_not.mpr hidle), if_pos (h.resolve_left (not_not.mpr hidle))]
  · rw [if_pos hidle]

/-- R195. -/
theorem exec_start_invalid {s : State} (hidle : s.runState = .idle) (hclean : s.errCode = 0)
    (hinvalid : cfgValid Config.params s = false) :
    exec .start s = .next (answerOk 0 (raiseConfigError s)) := by
  show Host.Outcome.next (startCommand Config.params s) = _
  rw [startCommand, if_neg (not_not.mpr hidle), if_neg (not_not.mpr hclean),
    if_neg (Bool.not_eq_true _ ▸ hinvalid)]

/-- Settles O33. -/
theorem startRefused : Obligations.StartRefused := fun _ => exec_start_refused

/-- Settles O32: the ERRCODE it writes refuses the next START. -/
theorem startWithInvalidConfiguration : Obligations.StartWithInvalidConfiguration := by
  intro s hidle hclean hinvalid
  refine ⟨_, exec_start_invalid hidle hclean hinvalid, rfl, exec_start_refused (.inr ?_)⟩
  show (1 : BitVec 4) ≠ 0
  decide

/-! ### Every command, accepted and refused -/

/-- R138, R110: `n = 15`. -/
theorem exec_ckbuf_long {var : Variant} {buf : BufSel} {n : BitVec 4} (hn : 14 < n.toNat) (s : State) :
    exec (.ckbuf var buf n) s = .next (raiseBusErr s) :=
  congrArg _ (if_neg (Nat.not_le.mpr hn))

/-- R138, while not Running. -/
theorem exec_ckbuf {var : Variant} {buf : BufSel} {n : BitVec 4} {s : State} (hr : s.runState ≠ .running)
    (hn : n.toNat ≤ 14) :
    exec (.ckbuf var buf n) s = .next (answerOk 0 (ckBuf Config.params.crc var buf n s)) :=
  congrArg _ ((if_pos hn).trans (whenNotRunning_open hr))

/-- R173 (b): while Running every command is refused. -/
theorem exec_command_running (c : Command) {s : State} (hr : s.runState = .running) :
    exec c.toInstr s = .next (raiseBusErr s) := by
  cases c with
  | ckinit | ckbyte | enc | dec => exact congrArg _ (whenNotRunning_running hr)
  | ckbuf var buf n =>
    obtain hlt | hle := Nat.lt_or_ge 14 n.toNat
    · exact exec_ckbuf_long hlt s
    · exact congrArg _ ((if_pos hle).trans (whenNotRunning_running hr))
  | start => exact exec_start_refused (.inl (by rw [hr]; decide))

/-- A command that R110, R172 and R193 allow is answered OK. -/
theorem exec_command_ok {c : Command} {s : State} (h : commandAllowed c s) :
    ∃ u, exec c.toInstr s = .next (answerOk 0 u) := by
  obtain ⟨hr, hw, hstart⟩ := h
  by_cases hc : c = .start
  · obtain ⟨hidle, hclean⟩ := hstart hc
    subst hc
    cases hv : cfgValid Config.params s with
    | false => exact ⟨_, exec_start_invalid hidle hclean hv⟩
    | true => exact ⟨_, exec_start_valid hidle hclean hv⟩
  · exact exec_toInstr_ok hr hw hc

/-- A command that they do not allow is answered ERR. -/
theorem exec_command_refused {c : Command} {s : State} (h : ¬ commandAllowed c s) :
    exec c.toInstr s = .next (raiseBusErr s) := by
  by_cases hr : s.runState = .running
  · exact exec_command_running c hr
  cases c with
  | ckinit | ckbyte | enc | dec => exact absurd ⟨hr, rfl, nofun⟩ h
  | ckbuf var buf n =>
    exact exec_ckbuf_long (Nat.lt_of_not_le fun hn => h ⟨hr, decide_eq_true hn, nofun⟩) s
  | start =>
    exact exec_start_refused (not_and_or.mp fun hok => h ⟨hr, rfl, fun _ => hok⟩)

/-! ### The checksum engine -/

/-- R136, while not Running. -/
theorem exec_ckinit (var : Variant) {s : State} (hr : s.runState ≠ .running) :
    exec (.ckinit var) s = .next (answerOk 0 (ckInit Config.params.crc var s)) :=
  congrArg _ (whenNotRunning_open hr)

/-- Settles O17: the seed is the strategy's. -/
theorem ckinitStartsAStream : Obligations.CkinitStartsAStream := by
  refine fun var s => ⟨fun hr => ?_, exec_command_running (.ckinit var)⟩
  rw [exec_ckinit var hr]
  cases var <;> rfl

/-- R137, while not Running. -/
theorem exec_ckbyte (b : Byte) {s : State} (hr : s.runState ≠ .running) :
    exec (.ckbyte b) s = .next (answerOk 0 (ckByte Config.params.crc b s)) :=
  congrArg _ (whenNotRunning_open hr)

/-- Settles O18: the strategy in CK_VAR absorbs the byte. -/
theorem ckbyteAbsorbsOneByte : Obligations.CkbyteAbsorbsOneByte := by
  refine fun b s => ⟨fun hr => ⟨_, exec_ckbyte b hr, fun hv => ?_, fun hv => ?_⟩,
    exec_command_running (.ckbyte b)⟩
  · show absorb Config.params.crc s.ckVar s.acc b = _
    rw [hv]
    rfl
  · show (absorb Config.params.crc s.ckVar s.acc b).toNat = _
    rw [hv]
    exact toNat_addByte s.acc b

/-- The state in the middle of a stream of CKBYTEs: strategy and accumulator, and the answer OK. -/
def streaming (var : Variant) (a : Half) (s : State) : State :=
  answerOk 0 { s with ckVar := var, acc := a }

/-- CKBYTE of each byte is the strategy's fold (R137). -/
theorem execAll_ckbytes {s : State} (hr : s.runState ≠ .running) (var : Variant) (a : Half) (m : List Byte) :
    execAll (m.map .ckbyte) (streaming var a s) =
      .next (streaming var (m.foldl (absorb Config.params.crc var) a) s) := by
  induction m generalizing a with
  | nil => rfl
  | cons b m ih =>
    have hb : exec (.ckbyte b) (streaming var a s) =
        .next (streaming var (absorb Config.params.crc var a b) s) := exec_ckbyte b hr
    rw [List.map_cons, execAll, hb]
    exact ih _

/-- Settles O19: CKBUF is the fold that CKINIT and the CKBYTEs make step by step. -/
theorem ckbufEqualsStreaming : Obligations.CkbufEqualsStreaming := by
  refine fun var buf n s => ⟨fun hr hn => ⟨_, exec_ckbuf hr hn, ?_⟩, fun h => ?_⟩
  · have hinit : exec (.ckinit var) s = .next (streaming var (seedOf Config.params.crc var) s) :=
      exec_ckinit var hr
    rw [execAll, hinit, exec_ckbuf hr hn]
    cases buf <;> exact execAll_ckbytes hr var _ _
  · obtain hr | hn := h
    · exact exec_command_running (.ckbuf var buf n) hr
    · exact exec_ckbuf_long hn s

/-! ### The frame codec -/

/-- R152, while not Running. -/
theorem exec_enc {s : State} (hr : s.runState ≠ .running) :
    exec .enc s = .next (answerOk 0 (encodeFrame Config.params.crc s)) :=
  congrArg _ (whenNotRunning_open hr)

/-- R155, while not Running. -/
theorem exec_dec {s : State} (hr : s.runState ≠ .running) :
    exec .dec s = .next (answerOk 0 (decodeFrame s)) :=
  congrArg _ (whenNotRunning_open hr)

/-- Settles O26: the bytes before the checksum field are the body. -/
theorem encWritesTheFrame : Obligations.EncWritesTheFrame := by
  refine fun s => ⟨fun hr => ⟨_, rfl, ?_⟩, exec_command_running .enc⟩
  rw [exec_enc hr, frame_toList_take_twelve]
  rfl

/-- R102: most significant byte first. -/
theorem toNat_valueAt (r : Frame) (o : Fin 11) :
    (valueAt r o).toNat = (((r.get ⟨o.val, by omega⟩).toNat * 256 + (r.get ⟨o.val + 1, by omega⟩).toNat) * 256
      + (r.get ⟨o.val + 2, by omega⟩).toNat) * 256 + (r.get ⟨o.val + 3, by omega⟩).toNat := by
  rw [valueAt, toNat_append_eq, toNat_append_eq, toNat_append_eq]
  rfl

/-- Settles O27: the two values are `valueAt` 4 and 8. -/
theorem decReadsTheValues : Obligations.DecReadsTheValues :=
  fun s => ⟨fun hr => ⟨_, _, exec_dec hr, toNat_valueAt s.rxbuf 4, toNat_valueAt s.rxbuf 8⟩,
    exec_command_running .dec⟩

/-- R73, R102: the four bytes of a value make it up. -/
theorem append_valueBytes (v : Word) :
    v.extractLsb' 24 8 ++ v.extractLsb' 16 8 ++ v.extractLsb' 8 8 ++ v.extractLsb' 0 8 = v := by
  rw [BitVec.extractLsb'_append_extractLsb'_eq_extractLsb' (by decide),
    BitVec.extractLsb'_append_extractLsb'_eq_extractLsb' (by decide),
    BitVec.extractLsb'_append_extractLsb'_eq_extractLsb' (by decide), BitVec.extractLsb'_eq_self]

/-- R150, R154: a frame's values are those it was made of. -/
theorem values_frame (p : CrcParams) (h0 h1 h2 h3 : Byte) (a b : Word) :
    values (frame p h0 h1 h2 h3 a b) = (a, b) :=
  Prod.ext (append_valueBytes a) (append_valueBytes b)

/-- Settles O28: DEC reads `values` of the frame that ENC wrote. -/
theorem codecRoundTrip : Obligations.CodecRoundTrip := by
  refine ⟨values_frame, fun s hr => ⟨_, _, exec_enc hr, exec_dec hr, ?_, ?_⟩⟩
  · exact congrArg Prod.fst (values_frame Config.params.crc s.hdr0 s.hdr1 s.hdr2 s.hdr3 s.valA s.valB)
  · exact congrArg Prod.snd (values_frame Config.params.crc s.hdr0 s.hdr1 s.hdr2 s.hdr3 s.valA s.valB)

/-! ### Validation by the host -/

/-- RD.REG answers the register and leaves the block alone (R170). -/
theorem exec_rdReg (r : Reg) (s : State) :
    exec (.rdReg r) s = .next (answerOk (readReg Config.params r s) s) := rfl

/-- R75: a byte is read zero-extended. -/
theorem toNat_readReg_rxbuf (i : Fin 14) (s : State) :
    (readReg Config.params (.rxbuf i) s).toNat = (s.rxbuf.get i).toNat :=
  BitVec.toNat_setWidth_of_le (by decide)

/-- R135: the view CKSUM. -/
theorem toNat_readReg_cksum (s : State) :
    (readReg Config.params .cksum s).toNat = (fin Config.params.crc s.ckVar s.acc).toNat :=
  BitVec.toNat_setWidth_of_le (by decide)

/-- R138: CRC16 over the first bytes of RXBUF. -/
theorem fin_ckBuf_rx (p : CrcParams) (n : BitVec 4) (s : State) :
    fin p .crc16 (ckBuf p .crc16 .rx n s).acc = crc16 p (s.rxbuf.toList.take n.toNat) := rfl

/-- R150: the checksum field in numbers. -/
theorem frame_checksum (p : CrcParams) (h0 h1 h2 h3 : Byte) (a b : Word) :
    (crc16 p (body h0 h1 h2 h3 a b)).toNat =
      256 * ((frame p h0 h1 h2 h3 a b).get 12).toNat + ((frame p h0 h1 h2 h3 a b).get 13).toNat := by
  generalize hc : crc16 p (body h0 h1 h2 h3 a b) = c
  have hfields : c.extractLsb' 8 8 ++ c.extractLsb' 0 8 = c := by
    rw [BitVec.extractLsb'_append_extractLsb'_eq_extractLsb' (by decide), BitVec.extractLsb'_eq_self]
  calc c.toNat = (c.extractLsb' 8 8 ++ c.extractLsb' 0 8).toNat := by rw [hfields]
    _ = (c.extractLsb' 8 8).toNat * 256 + (c.extractLsb' 0 8).toNat := toNat_append_eq _ _
    _ = 256 * (c.extractLsb' 8 8).toNat + (c.extractLsb' 0 8).toNat := by rw [Nat.mul_comm]
    _ = _ := by rw [← hc]; rfl

/-- Settles O29: CKBUF over the body leaves in CKSUM the checksum the frame carries; over all 14 bytes it is the
residue of law c. -/
theorem hostValidationOfAFrame : Obligations.HostValidationOfAFrame := by
  intro s h0 h1 h2 h3 a b hr hrx high low answersOk
  have hsum : (readReg Config.params .cksum (ckBuf Config.params.crc .crc16 .rx 12 s)).toNat =
      256 * high + low := by
    have hbody : s.rxbuf.toList.take 12 = body h0 h1 h2 h3 a b := by rw [hrx, frame_toList_take_twelve]
    have hfin := fin_ckBuf_rx Config.params.crc 12 s
    rw [toNat_readReg_cksum]
    refine (congrArg BitVec.toNat hfin).trans ?_
    rw [show (12 : BitVec 4).toNat = 12 from rfl, hbody, frame_checksum, ← hrx]
  refine ⟨⟨_, _, _, _, ⟨exec_ckbuf hr (by decide), 0, rfl, rfl⟩, ⟨exec_rdReg .cksum _, _, hsum, rfl⟩,
    ⟨exec_rdReg (.rxbuf 12) _, _, toNat_readReg_rxbuf 12 _, rfl⟩,
    ⟨exec_rdReg (.rxbuf 13) _, _, toNat_readReg_rxbuf 13 _, rfl⟩, ?_, rfl, rfl⟩,
    fun hmask => ⟨_, ⟨exec_ckbuf hr (by decide), 0, rfl, rfl⟩, ?_⟩⟩
  · rw [asmVerifyrx, execAll, exec_ckbuf hr (by decide)]
    rfl
  · show crcAcc Config.params.crc (s.rxbuf.toList.take 14) = 0
    rw [List.take_of_length_le (by simp), hrx]
    exact crcAcc_frame _ hmask ..

end Sys2Proof.Machine
end

