-- ==== Sys2Proof/Proofs/HostPort.lean ====
section
/-! PROOF. The host port (43_host_access.md R170 to R178): every operation is allowed and answered OK, or is not
and is answered ERR; and the register file as RD.REG and WR.REG show it. -/

namespace Sys2Proof.Machine

/-! ### Allowed or refused -/

/-- The table of R178 on a command alone. -/
theorem hostAllowed_command (c : Command) (s : State) : hostAllowed c.toInstr s ↔ commandAllowed c s := by
  cases c <;> rfl

/-- The table of R178 on a plain store is the register's access and lock (R21, R172). -/
theorem hostAllowed_wrReg_iff {r : Reg} (hr : r ≠ .cmd) (wdata : DWord) (s : State) :
    hostAllowed (.wrReg r wdata) s ↔ writeAllowed r s = true := by
  have hidle : s.runState = .idle ↔ decide (s.runState = .idle) = true := decide_eq_true_iff.symm
  have hfree : s.runState ≠ .running ↔ decide (s.runState ≠ .running) = true := decide_eq_true_iff.symm
  cases r with
  | cmd => exact absurd rfl hr
  | cfg | period | count | duration | trajLen => exact hidle
  | hdr0 | hdr1 | hdr2 | hdr3 | valA | valB | txbuf | rxbuf => exact hfree
  | status | iter | tsLen | errInfo | tStart | tPre | tPost | deadline | decA | decB | acc | cksum =>
    exact ⟨False.elim, nofun⟩

/-- The command port, allowed (R108). -/
theorem exec_wrReg_cmd_ok {wdata : DWord} {s : State} (h : hostAllowed (.wrReg .cmd wdata) s) :
    ∃ u, exec (.wrReg .cmd wdata) s = .next (answerOk 0 u) := by
  obtain ⟨c, hd, hc⟩ := h
  rw [exec_wrReg_cmd wdata hc.1, writeCommand_ok hd]
  exact exec_command_ok hc

/-- The command port, refused: while Running, for an illegal word, and where the command is (R108, R112). -/
theorem exec_wrReg_cmd_not_allowed {wdata : DWord} {s : State} (h : ¬ hostAllowed (.wrReg .cmd wdata) s) :
    exec (.wrReg .cmd wdata) s = .next (raiseBusErr s) := by
  by_cases hr : s.runState = .running
  · exact exec_wrReg_cmd_running wdata hr
  rw [exec_wrReg_cmd wdata hr]
  cases hd : decodeCommand (wdata.setWidth 16) with
  | rejected why => exact writeCommand_rejected hd s
  | ok c =>
    rw [writeCommand_ok hd]
    exact exec_command_refused fun hc => h ⟨c, hd, hc⟩

/-- What R178 allows is answered OK. -/
theorem exec_of_hostAllowed {i : Instr} {s : State} (h : hostAllowed i s) :
    ∃ d u, exec i s = .next (answerOk d u) := by
  have hcommand {c : Command} (hc : hostAllowed c.toInstr s) : ∃ d u, exec c.toInstr s = .next (answerOk d u) :=
    ⟨0, exec_command_ok ((hostAllowed_command c s).mp hc)⟩
  cases i with
  | rdReg r => exact ⟨_, _, exec_rdReg r s⟩
  | wrReg r wdata =>
    by_cases hr : r = .cmd
    · subst hr
      exact ⟨0, exec_wrReg_cmd_ok h⟩
    · exact ⟨0, _, exec_wrReg_store wdata ((hostAllowed_wrReg_iff hr wdata s).mp h) hr⟩
  | rdTraj idx => exact ⟨_, _, exec_rdTraj_of_lt h⟩
  | wrTraj idx wdata => exact ⟨_, _, exec_wrTraj_of_lt wdata h.1 h.2⟩
  | rdTs idx => exact ⟨_, _, exec_rdTs_of_lt h.1 h.2⟩
  | ckinit var => exact hcommand (c := .ckinit var) h
  | ckbyte b => exact hcommand (c := .ckbyte b) h
  | ckbuf var buf n => exact hcommand (c := .ckbuf var buf n) h
  | enc => exact hcommand (c := .enc) h
  | dec => exact hcommand (c := .dec) h
  | start => exact hcommand (c := .start) h
  | phIdle | phCheck | phWait | phPre | phEnc | phXreq | phXwait | phDec | phPost | phAppend | phDone =>
    exact h.elim

/-- What R178 does not allow is answered ERR, and changes nothing else (R232). -/
theorem exec_of_not_hostAllowed {i : Instr} {s : State} (hi : isHost i = true) (h : ¬ hostAllowed i s) :
    exec i s = .next (raiseBusErr s) := by
  have hcommand {c : Command} (hc : ¬ hostAllowed c.toInstr s) : exec c.toInstr s = .next (raiseBusErr s) :=
    exec_command_refused (mt (hostAllowed_command c s).mpr hc)
  cases i with
  | rdReg r => exact absurd trivial h
  | wrReg r wdata =>
    by_cases hr : r = .cmd
    · subst hr
      exact exec_wrReg_cmd_not_allowed h
    · exact exec_wrReg_refused wdata (Bool.eq_false_iff.mpr (mt (hostAllowed_wrReg_iff hr wdata s).mpr h))
  | rdTraj idx => exact exec_rdTraj_of_le (Nat.le_of_not_lt h)
  | wrTraj idx wdata => exact exec_wrTraj_refused wdata ((not_and_or.mp h).imp_left Nat.le_of_not_lt)
  | rdTs idx =>
    exact exec_rdTs_of_running_or_le ((not_and_or.mp h).imp not_not.mp BitVec.not_lt.mp)
  | ckinit var => exact hcommand (c := .ckinit var) h
  | ckbyte b => exact hcommand (c := .ckbyte b) h
  | ckbuf var buf n => exact hcommand (c := .ckbuf var buf n) h
  | enc => exact hcommand (c := .enc) h
  | dec => exact hcommand (c := .dec) h
  | start => exact hcommand (c := .start) h
  | phIdle | phCheck | phWait | phPre | phEnc | phXreq | phXwait | phDec | phPost | phAppend | phDone =>
    cases hi

/-- Settles O8: `hostAllowed` decides between the two answers. -/
theorem hostAnswersOkExactlyWhenAllowed : Obligations.HostAnswersOkExactlyWhenAllowed := by
  intro i s hi
  by_cases h : hostAllowed i s
  · obtain ⟨d, u, hx⟩ := exec_of_hostAllowed h
    exact ⟨_, _, hx, rfl, iff_of_true rfl h, nofun⟩
  · exact ⟨_, _, exec_of_not_hostAllowed hi h, rfl, iff_of_false nofun h, fun _ => ⟨rfl, rfl⟩⟩

/-- R173, R268: while Running only RD.REG and RD.TRAJ are allowed. -/
theorem hostAllowed_of_running {i : Instr} {s : State} (hr : s.runState = .running) (h : hostAllowed i s) :
    (∃ r, i = .rdReg r) ∨ (∃ idx, i = .rdTraj idx) := by
  have hcommand {c : Command} : ¬ commandAllowed c s := fun hc => hc.1 hr
  cases i with
  | rdReg r => exact .inl ⟨r, rfl⟩
  | rdTraj idx => exact .inr ⟨idx, rfl⟩
  | wrReg r wdata =>
    by_cases hcmd : r = .cmd
    · subst hcmd
      obtain ⟨c, -, hc⟩ := h
      exact absurd hc hcommand
    · rw [hostAllowed_wrReg_iff hcmd, writeAllowed, hr] at h
      cases r <;> cases h
  | wrTraj idx wdata => rw [h.2] at hr; cases hr
  | rdTs idx => exact absurd hr h.1
  | ckinit | ckbyte | ckbuf | enc | dec | start => exact absurd h hcommand
  | phIdle | phCheck | phWait | phPre | phEnc | phXreq | phXwait | phDec | phPost | phAppend | phDone =>
    exact h.elim

/-- Settles O14: what is allowed while Running reads, and what is not is refused. -/
theorem hostCannotDisturbARun : Obligations.HostCannotDisturbARun := by
  intro i s t hi hr hx
  by_cases h : hostAllowed i s
  · have hread := hostAllowed_of_running hr h
    refine ⟨?_, fun _ => hread⟩
    obtain ⟨r, rfl⟩ | ⟨idx, rfl⟩ := hread
    · cases hx
      rfl
    · rw [exec_rdTraj_of_lt h] at hx
      cases hx
      rfl
  · rw [exec_of_not_hostAllowed hi h] at hx
    cases hx
    exact ⟨rfl, nofun⟩

/-! ### The register file -/

/-- R30: the four fields of STATUS and their places. -/
theorem toNat_statusWord (s : State) :
    (statusWord s).toNat =
      s.runState.code.toNat + 4 * s.phase.code.toNat + 64 * s.errCode.toNat + 1024 * s.ckVar.code.toNat := by
  rw [statusWord, BitVec.toNat_setWidth_of_le (by decide), toNat_append_eq, toNat_append_eq, toNat_append_eq]
  omega

/-- Settles O9: each register's value is widened, and STATUS is `toNat_statusWord`. -/
theorem registerReadAnswersItsValue : Obligations.RegisterReadAnswersItsValue := by
  intro s reads stateNumber phaseNumber variantNumber
  have hreads {r : Reg} {v : Nat} (h : (readReg Config.params r s).toNat = v) : reads r v :=
    ⟨_, h, exec_rdReg r s⟩
  have hwide {w : Nat} (hw : w ≤ 64) (x : BitVec w) : (x.setWidth 64).toNat = x.toNat :=
    BitVec.toNat_setWidth_of_le hw
  have h32 (x : Word) := hwide (by decide) x
  have h8 (x : Byte) := hwide (by decide) x
  have hstate : s.runState.code.toNat = stateNumber := by
    simp only [stateNumber]
    cases s.runState <;> rfl
  have hphase : s.phase.code.toNat = phaseNumber := by
    simp only [phaseNumber]
    cases s.phase <;> rfl
  have hvariant : s.ckVar.code.toNat = variantNumber := by
    simp only [variantNumber]
    cases s.ckVar <;> rfl
  have hstatus := (h32 (statusWord s)).trans (toNat_statusWord s)
  rw [hstate, hphase, hvariant] at hstatus
  have hcksum : (readReg Config.params .cksum s).toNat =
      if s.ckVar = .crc16 then (s.acc ^^^ Config.crcXorOut).toNat else s.acc.toNat := by
    rw [toNat_readReg_cksum]
    cases s.ckVar <;> rfl
  exact ⟨hreads rfl, hreads hstatus, hreads (h32 _), hreads (h32 _), hreads (h32 _), hreads rfl,
    hreads (h32 _), hreads (h32 _), hreads (h32 _), hreads (h32 _), hreads rfl, hreads rfl, hreads rfl,
    hreads rfl, hreads (h8 _), hreads (h8 _), hreads (h8 _), hreads (h8 _), hreads (h32 _), hreads (h32 _),
    hreads (h32 _), hreads (h32 _), hreads (hwide (by decide) s.acc), hreads hcksum, fun i => hreads (h8 _),
    fun i => hreads (h8 _)⟩

/-- A byte of a buffer after a store to one of its bytes. -/
theorem frame_get_set (f : Frame) (i j : Fin 14) (b : Byte) :
    (f.set i.val b).get j = if j = i then b else f.get j := by
  show (f.set i.val b)[j.val] = if j = i then b else f[j.val]
  rw [Vector.getElem_set]
  simp only [Fin.ext_iff, eq_comm]

/-- R77, R171: a register reads the low bits of what was stored to it. -/
theorem toNat_readReg_writeReg_self {r : Reg} {s : State} (wdata : DWord) (hw : writeAllowed r s = true)
    (hr : r ≠ .cmd) :
    (readReg Config.params r (writeReg r wdata s)).toNat =
      if r = .cfg then wdata.toNat % 4 else wdata.toNat % 2 ^ regWidth r := by
  have hlow {w : Nat} (h : w ≤ 64) : ((wdata.setWidth w).setWidth 64).toNat = wdata.toNat % 2 ^ w := by
    rw [BitVec.toNat_setWidth_of_le h, BitVec.toNat_setWidth]
  cases r with
  | cmd => exact absurd rfl hr
  | cfg =>
    rw [if_pos rfl]
    show (((wdata.setWidth 2).setWidth 32).setWidth 64).toNat = _
    rw [BitVec.toNat_setWidth_of_le (by decide), BitVec.toNat_setWidth_of_le (by decide), BitVec.toNat_setWidth]
  | duration => exact (Nat.mod_eq_of_lt wdata.isLt).symm
  | period | count | trajLen | valA | valB | hdr0 | hdr1 | hdr2 | hdr3 => exact hlow (by decide)
  | txbuf i =>
    show (((s.txbuf.set i.val (wdata.setWidth 8)).get i).setWidth 64).toNat = _
    rw [frame_get_set, if_pos rfl]
    exact hlow (by decide)
  | rxbuf i =>
    show (((s.rxbuf.set i.val (wdata.setWidth 8)).get i).setWidth 64).toNat = _
    rw [frame_get_set, if_pos rfl]
    exact hlow (by decide)
  | status | iter | tsLen | errInfo | tStart | tPre | tPost | deadline | decA | decB | acc | cksum => cases hw

/-- R171: a store reaches no other register. -/
theorem readReg_writeReg_of_ne {r r' : Reg} (h : r' ≠ r) (wdata : DWord) (s : State) :
    readReg Config.params r' (writeReg r wdata s) = readReg Config.params r' s := by
  cases r with
  | txbuf i =>
    cases r' with
    | txbuf j =>
      have hji : j ≠ i := fun e => h (congrArg Reg.txbuf e)
      exact congrArg (BitVec.setWidth 64) ((frame_get_set s.txbuf i j _).trans (if_neg hji))
    | _ => rfl
  | rxbuf i =>
    cases r' with
    | rxbuf j =>
      have hji : j ≠ i := fun e => h (congrArg Reg.rxbuf e)
      exact congrArg (BitVec.setWidth 64) ((frame_get_set s.rxbuf i j _).trans (if_neg hji))
    | _ => rfl
  | _ => cases r' <;> simp_all [readReg, writeReg, statusWord]

/-- Settles O10: an allowed plain write is `writeReg`, which reaches one register. -/
theorem registerWriteStoresLowBits : Obligations.RegisterWriteStoresLowBits := by
  intro r wdata s hr hallowed
  have hw := (hostAllowed_wrReg_iff hr wdata s).mp hallowed
  refine ⟨_, exec_wrReg_store wdata hw hr, rfl, toNat_readReg_writeReg_self wdata hw hr,
    fun r' h => readReg_writeReg_of_ne h wdata s, ?_⟩
  cases r <;> exact ⟨rfl, rfl, rfl, rfl, rfl, rfl, rfl, rfl, rfl, rfl, rfl, rfl, rfl⟩

end Sys2Proof.Machine
end

