-- ==== Sys2Proof/Proofs/Transfer.lean ====
section
/-! PROOF. The transfer (42_scheduler.md R207 to R211; 20_memory.md R86, R87): the request, the two outcomes of
its answer, the answers that are discarded, and the hold in XWAIT. -/

namespace Sys2Proof.Machine

/-- Settles O39: XREQ is `requestStep` in every state. -/
theorem xreqHandsOverTheFrame : Obligations.XreqHandsOverTheFrame := fun _ => rfl

/-- R87. -/
theorem success_iff (a : XferAnswer) : a.success = true ↔ a.status = .ok ∧ a.count.toNat = 14 := by
  rw [XferAnswer.success, Bool.and_eq_true, decide_eq_true_iff, decide_eq_true_iff, ← BitVec.toNat_inj]
  rfl

/-- R209: XWAIT consumes the answer. -/
theorem exec_phXwait_answered {s : State} {x : Transfer} {a : XferAnswer} (hx : s.pending = some x)
    (ha : x.answer = some a) : exec .phXwait s = .next (answerStep a s) := by
  have hanswer : s.pending.bind (·.answer) = some a := by rw [hx]; exact ha
  show Host.Outcome.next (xwaitStep s) = _
  rw [xwaitStep, hanswer]

/-- R210: without an answer XWAIT does nothing. -/
theorem exec_phXwait_held {s : State} {x : Transfer} (hx : s.pending = some x) (ha : x.answer = none) :
    exec .phXwait s = .next s := by
  have hanswer : s.pending.bind (·.answer) = none := by rw [hx]; exact ha
  show Host.Outcome.next (xwaitStep s) = _
  rw [xwaitStep, hanswer]

/-- Settles O40: the answer is a success. -/
theorem xwaitTakesASuccessfulAnswer : Obligations.XwaitTakesASuccessfulAnswer := by
  intro s x data hx ha
  rw [exec_phXwait_answered hx ha]
  obtain ⟨-, heq⟩ | ⟨hfail, -⟩ := answerStep_cases { status := .ok, count := 14, data := data } s
  · rw [heq]
    rfl
  · cases hfail

/-- Settles O41: any other answer is no success, and the abort is `raiseAbort`. -/
theorem xwaitAbortsOnAFailedAnswer : Obligations.XwaitAbortsOnAFailedAnswer := by
  intro s x a hx ha hbad
  rw [exec_phXwait_answered hx ha]
  obtain ⟨hok, -⟩ | ⟨-, heq⟩ := answerStep_cases a s
  · obtain ⟨hstatus, hcount⟩ := (success_iff a).mp hok
    obtain herr | hshort := hbad
    · rw [hstatus] at herr
      cases herr
    · exact absurd hcount hshort
  · exact ⟨_, _, congrArg _ heq⟩

/-- R86, R261: an answer to another request, or a second one, is discarded. -/
theorem transportTurn_discarded {s : State} {n : Nat} {a : XferAnswer}
    (h : ∀ x, s.pending = some x → x.serial ≠ n ∨ x.answer ≠ none) : transportTurn n a s = s := by
  rw [transportTurn]
  split
  · rename_i x hx
    exact if_neg (not_and_or.mpr (h x hx))
  · rfl

/-- R86: the answer to the pending request is kept. -/
theorem transportTurn_kept {s : State} {a : XferAnswer} {x : Transfer} (hx : s.pending = some x)
    (ha : x.answer = none) :
    transportTurn x.serial a s = { s with pending := some { x with answer := some a } } := by
  rw [transportTurn, hx]
  exact if_pos ⟨rfl, ha⟩

/-- Settles O43: TRANSPORT's turn keeps an answer or discards it. -/
theorem lateAnswersAreDiscarded : Obligations.LateAnswersAreDiscarded := by
  refine fun s n a rest hin => ⟨fun h => ?_, fun x hx hn ha => ?_⟩
  · rw [step_transport hin, taken_of_cons hin]
    exact congrArg _ (transportTurn_discarded h)
  · subst hn
    rw [step_transport hin, taken_of_cons hin]
    exact congrArg _ (transportTurn_kept (s := { s with inputs := rest }) hx ha)

/-- Settles O42: the host cannot disturb a run, the sequencer is held, and an answer to another request is
discarded. -/
theorem holdIsLiftedOnlyByAnAnswer : Obligations.HoldIsLiftedOnlyByAnAnswer := by
  refine fun s x hp hr hx ha => ⟨exec_phXwait_held hx ha, fun t hstep hreset hanswer => ?_⟩
  obtain ⟨w, rest, i, -, -, hi, hexec⟩ | ⟨w, rest, why, -, -, rfl⟩ | ⟨-, hexec⟩ | ⟨n, a, rest, hin, rfl⟩ |
    ⟨rest, hin, -⟩ := step_cases hstep
  · exact (hostCannotDisturbARun i (taken s) t hi hr hexec).1
  · rfl
  · rw [show (taken s).phase = .xwait from hp] at hexec
    obtain rfl := Host.Outcome.next.inj ((exec_phXwait_held (s := taken s) hx ha).symm.trans hexec)
    rfl
  · have hother : ∀ y, (taken s).pending = some y → y.serial ≠ n ∨ y.answer ≠ none := by
      intro y hy
      obtain rfl := Option.some.inj (hx.symm.trans hy)
      exact .inl fun hn => hanswer a rest (hn ▸ hin)
    rw [transportTurn_discarded hother]
    rfl
  · exact absurd hin (hreset rest)

end Sys2Proof.Machine
end

