-- ==== Sys2Proof/Proofs/SchedulerSteps.lean ====
section
/-! PROOF. What a step can do to the scheduler (42_scheduler.md section 1): nothing, an accepted START, or one
phase. The rules about the whole machine's course follow from this one inversion. -/

namespace Sys2Proof.Machine

/-- The scheduler's own registers are the same: STATE, PHASE, the counters, the series and the error. -/
structure SchedulerKept (s t : State) : Prop where
  runState : t.runState = s.runState
  phase : t.phase = s.phase
  iter : t.iter = s.iter
  tsLen : t.tsLen = s.tsLen
  ts : t.ts = s.ts
  errCode : t.errCode = s.errCode
  errInfo : t.errInfo = s.errInfo

/-- What START did where it was accepted (R195, R196). -/
inductive StartDid (s : State) : State → Prop
  | run (valid : cfgValid Config.params s = true) : StartDid s (answerOk 0 (startRun s))
  | error : StartDid s (answerOk 0 (raiseConfigError s))

/-- A plain store reaches no register of the scheduler (R171). -/
theorem schedulerKept_writeReg (r : Reg) (wdata : DWord) (s : State) :
    SchedulerKept s (writeReg r wdata s) := by
  cases r <;> exact ⟨rfl, rfl, rfl, rfl, rfl, rfl, rfl⟩

/-- A host transaction leaves the scheduler alone, but for an accepted START. -/
theorem Did.host_cases {i : Instr} {s t : State} (hd : Did i s t) (hi : isHost i = true) :
    SchedulerKept s t ∨
      (carries i .start = true ∧ s.runState = .idle ∧ s.errCode = 0 ∧ StartDid s t) := by
  cases hd with
  | busErr | readReg | readTraj | readTs | storeTraj | ckinit | ckbyte | ckbuf | encode | decode =>
    exact .inl ⟨rfl, rfl, rfl, rfl, rfl, rfl, rfl⟩
  | store => exact .inl { schedulerKept_writeReg _ _ s with }
  | start hc hidle hclean hvalid => exact .inr ⟨hc, hidle, hclean, .run hvalid⟩
  | configError hc hidle hclean => exact .inr ⟨hc, hidle, hclean, .error⟩
  | phIdle | phCheck | phWait | phPre | phEnc | phXreq | held | answered | phDec | phPost | phAppend
  | phDone => cases hi

/-- The inversion of a step without a reset, as the scheduler sees it. -/
theorem step_scheduler {s t : State} (h : step s = .next t) (hreset : ∀ rest, s.inputs ≠ .reset :: rest) :
    SchedulerKept s t ∨
    (s.runState = .idle ∧ s.errCode = 0 ∧ StartDid (taken s) t ∧
      ∃ w rest i, s.inputs = .host w :: rest ∧ decode (.bus w) = .ok i ∧ carries i .start = true) ∨
    ((s.inputs = [] ∨ ∃ rest, s.inputs = .seq :: rest) ∧ PhaseDid s.phase (taken s) t) := by
  obtain ⟨w, rest, i, hin, hd, hi, hx⟩ | ⟨w, rest, why, -, -, rfl⟩ | ⟨hin, hx⟩ | ⟨n, a, rest, -, rfl⟩ |
    ⟨rest, hin, -⟩ := step_cases h
  · obtain hkept | ⟨hc, hidle, hclean, hstart⟩ := (exec_did hx).host_cases hi
    · exact .inl { hkept with }
    · exact .inr (.inl ⟨hidle, hclean, hstart, w, rest, i, hin, hd, hc⟩)
  · exact .inl ⟨rfl, rfl, rfl, rfl, rfl, rfl, rfl⟩
  · exact .inr (.inr ⟨hin, exec_phaseDid hx⟩)
  · rw [transportTurn_eq]
    exact .inl ⟨rfl, rfl, rfl, rfl, rfl, rfl, rfl⟩
  · exact absurd hin (hreset rest)

/-! ### The phase graph -/

/-- R192: the program counter after a phase. -/
theorem PhaseDid.phase_mem {p : Phase} {s t : State} (hd : PhaseDid p s t) (hp : s.phase = p) :
    t.phase ∈ nextPhases p := by
  cases hd with
  | idle | held | done => rw [hp]; decide
  | check =>
    obtain ⟨-, -, heq⟩ | ⟨-, heq⟩ := checkStep_cases s <;> simp [heq, nextPhases]
  | wait =>
    obtain ⟨-, -, heq⟩ | ⟨-, -, heq⟩ | ⟨-, -, heq⟩ := pollStep_cases (nowValue s) (afterNow s) <;>
      simp [heq, nextPhases]
  | @answered s a =>
    obtain ⟨-, heq⟩ | ⟨-, heq⟩ := answerStep_cases a s <;> simp [heq, nextPhases]
  | pre | enc | xreq | dec | post | append => exact List.mem_singleton_self _

/-- Settles O48. -/
theorem phaseGraph : Obligations.PhaseGraph :=
  fun _ _ h => (exec_phaseDid h).phase_mem rfl

/-- R27, R219: the sequencer keeps STATE or ends the run. -/
theorem PhaseDid.runState_cases {p : Phase} {s t : State} (hd : PhaseDid p s t) :
    t.runState = s.runState ∨ (t.runState = .finished ∧ (p = .check ∨ p = .wait ∨ p = .xwait)) := by
  cases hd with
  | idle | held | done | pre | xreq | dec | post | append => exact .inl rfl
  | enc => rw [loadSample_eq]; exact .inl rfl
  | check =>
    obtain ⟨-, -, heq⟩ | ⟨-, heq⟩ := checkStep_cases s
    · rw [heq]; exact .inr ⟨rfl, .inl rfl⟩
    · rw [heq]; exact .inl rfl
  | wait =>
    obtain ⟨-, -, heq⟩ | ⟨-, -, heq⟩ | ⟨-, -, heq⟩ := pollStep_cases (nowValue s) (afterNow s)
    · rw [heq]; exact .inr ⟨rfl, .inr (.inl rfl)⟩
    · rw [heq]; exact .inl rfl
    · rw [heq]; exact .inl rfl
  | answered =>
    obtain ⟨-, heq⟩ | ⟨-, heq⟩ := answerStep_cases _ s
    · rw [heq]; exact .inl rfl
    · rw [heq]; exact .inr ⟨rfl, .inr (.inr rfl)⟩

/-- Settles O34: IDLE and DONE stutter, and out of DONE no START is accepted. -/
theorem idleAndDoneHaveNoStep : Obligations.IdleAndDoneHaveNoStep := by
  refine ⟨fun _ => rfl, fun _ => rfl, fun s t hstate hstep hreset => ⟨fun hp => ?_, fun hp => ?_⟩⟩
  · obtain hkept | ⟨-, -, hstart, hhost⟩ | ⟨-, hd⟩ := step_scheduler hstep hreset
    · exact .inl (hkept.phase.trans hp)
    · cases hstart with
      | run => exact .inr ⟨rfl, hhost⟩
      | error => exact .inl hp
    · rw [hp] at hd
      cases hd
      exact .inl hp
  · obtain hkept | ⟨hidle, -⟩ | ⟨-, hd⟩ := step_scheduler hstep hreset
    · exact hkept.phase.trans hp
    · rw [hstate, hp] at hidle
      cases hidle
    · rw [hp] at hd
      cases hd
      exact hp

/-- R28: in the three phases that may end a run it is Running. -/
theorem running_of_ending {p : Phase} (h : p = .check ∨ p = .wait ∨ p = .xwait) :
    phaseRunState p = .running := by
  obtain rfl | rfl | rfl := h <;> rfl

/-- Settles O49. -/
theorem stateMachineHasTwoEdges : Obligations.StateMachineHasTwoEdges := by
  intro s t hstate hstep hreset
  obtain hkept | ⟨hidle, -, hstart, hhost⟩ | ⟨hin, hd⟩ := step_scheduler hstep hreset
  · exact .inl hkept.runState
  · cases hstart with
    | run hvalid => exact .inr (.inl ⟨hidle, rfl, hvalid, hhost⟩)
    | error => exact .inl rfl
  · obtain hsame | ⟨hfin, hp⟩ := hd.runState_cases
    · exact .inl hsame
    · exact .inr (.inr ⟨hstate.trans (running_of_ending hp), hfin, hp, hin⟩)

/-! ### Errors and the series -/

/-- Out of a run the sequencer does nothing. -/
theorem PhaseDid.eq_of_not_running {p : Phase} {s t : State} (hd : PhaseDid p s t)
    (hp : phaseRunState p ≠ .running) : t = s := by
  cases hd with
  | idle | held | done => rfl
  | check | wait | pre | enc | xreq | answered | dec | post | append => exact absurd rfl hp

/-- Settles O56: after an error the block is not Running, so the sequencer does nothing; and START is refused. -/
theorem errorsAreTerminal : Obligations.ErrorsAreTerminal := by
  intro s t h herr hstep hreset
  obtain hkept | ⟨-, hclean, -⟩ | ⟨-, hd⟩ := step_scheduler hstep hreset
  · exact ⟨hkept.errCode, hkept.errInfo, hkept.runState⟩
  · exact absurd hclean herr
  · have hnot : phaseRunState s.phase ≠ .running := fun hr =>
      herr (h.errCode_of_running (h.phase_state.trans hr))
    obtain rfl := hd.eq_of_not_running hnot
    exact ⟨rfl, rfl, rfl⟩

/-- R214: of the phases only APPEND writes the series. -/
theorem PhaseDid.series_cases {p : Phase} {s t : State} (hd : PhaseDid p s t) :
    (t.ts = s.ts ∧ t.tsLen = s.tsLen) ∨
      (p = .append ∧ s.tsLen.toNat + stampsPerIter s ≤ Config.tsCap ∧ t = appended s) := by
  cases hd with
  | append hroom => exact .inr ⟨rfl, hroom, rfl⟩
  | idle | held | done | pre | xreq | dec | post => exact .inl ⟨rfl, rfl⟩
  | enc => rw [loadSample_eq]; exact .inl ⟨rfl, rfl⟩
  | check => obtain ⟨-, -, heq⟩ | ⟨-, heq⟩ := checkStep_cases s <;> rw [heq] <;> exact .inl ⟨rfl, rfl⟩
  | wait => rw [pollStep_afterNow_frame]; exact .inl ⟨rfl, rfl⟩
  | answered => obtain ⟨-, heq⟩ | ⟨-, heq⟩ := answerStep_cases _ s <;> rw [heq] <;> exact .inl ⟨rfl, rfl⟩

/-- Settles O57: only START and APPEND write the series; START only where it is empty, APPEND only above TS_LEN,
and neither in Finished. -/
theorem seriesIsAppendOnly : Obligations.SeriesIsAppendOnly := by
  intro s t h hstep hreset
  have hsame (hts : t.ts = s.ts) (hlen : t.tsLen = s.tsLen) :
      s.tsLen.toNat ≤ t.tsLen.toNat ∧ (∀ a < s.tsLen.toNat, t.ts.read a = s.ts.read a) ∧
      (s.runState = .finished → t.ts = s.ts ∧ t.tsLen = s.tsLen) :=
    ⟨(congrArg BitVec.toNat hlen).ge, fun a _ => by rw [hts], fun _ => ⟨hts, hlen⟩⟩
  obtain hkept | ⟨hidle, -, hstart, -⟩ | ⟨-, hd⟩ := step_scheduler hstep hreset
  · exact hsame hkept.ts hkept.tsLen
  · cases hstart with
    | run =>
      have hempty := h.tsLen_of_idle hidle
      exact hsame rfl (BitVec.eq_of_toNat_eq hempty.symm)
    | error => exact hsame rfl rfl
  · obtain ⟨hts, hlen⟩ | ⟨hp, hroom, rfl⟩ := hd.series_cases
    · exact hsame hts hlen
    · have hrun := h.runState_of_phase hp
      refine ⟨?_, fun a ha => read_stampedTs_of_lt (s := taken s) h.ts_wf ha, fun hfin => ?_⟩
      · rw [toNat_tsLen_appended hroom]
        exact Nat.le_add_right _ _
      · rw [hfin] at hrun
        cases hrun

/-! ### Progress, and the number of iterations -/

/-- Settles O52: the two phases that could stop are inside their memories by R48 (c), and every other
instruction completes. -/
theorem invariantStatesNeverStop : Obligations.InvariantStatesNeverStop := by
  intro s h
  have hseq (hin : s.inputs = [] ∨ ∃ rest, s.inputs = .seq :: rest) : SafeStep s := by
    have hstep := step_seq hin
    rw [SafeStep, hstep]
    cases hp : s.phase with
    | enc =>
      have hn : s.runState ≠ .idle := by rw [h.runState_of_phase hp]; decide
      have hlt := (h.in_iteration (by rw [hp]; rfl)).1
      exact ⟨_, exec_phEnc (s := taken s) (hlt.trans_le (h.index hn).2)⟩
    | append => exact ⟨_, exec_phAppend (s := taken s) (h.stamps_fit (by rw [hp]; rfl))⟩
    | idle | check | wait | pre | xreq | xwait | dec | post | done => exact ⟨_, rfl⟩
  cases hin : s.inputs with
  | nil => exact hseq (.inl hin)
  | cons x rest =>
    cases x with
    | seq => exact hseq (.inr ⟨rest, hin⟩)
    | host w =>
      cases hd : decode (.bus w) with
      | ok i =>
        have hi : isHost i = true := decodeBus_isHost hd
        rw [SafeStep, step_host_ok hin hd]
        exact exec_next (fun e => by rw [e] at hi; cases hi) (fun e => by rw [e] at hi; cases hi) _
      | rejected why => exact ⟨_, step_host_rejected hin hd⟩
    | transport n a => exact ⟨_, step_transport hin⟩
    | reset => exact ⟨_, step_reset hin⟩

/-- R217: the last iteration started before DURATION. -/
theorem le_ceilDiv_of_pred_mul_lt {n p d : Nat} (hp : 0 < p) (h : n = 0 ∨ (n - 1) * p < d) :
    n ≤ (d + p - 1) / p := by
  obtain rfl | hlt := h
  · exact Nat.zero_le _
  · cases n with
    | zero => exact Nat.zero_le _
    | succ n =>
      rw [Nat.le_div_iff_mul_le hp, Nat.succ_mul]
      rw [Nat.add_sub_cancel] at hlt
      omega

/-- Settles O55: the next state meets the invariant too, and in Finished its clauses are the two bounds. -/
theorem iterationsAreBounded : Obligations.IterationsAreBounded := by
  intro s t hs hstep _ hfin hclean
  have h : Inv t := stepKeepsTheInvariant s t hs hstep
  have hn : t.runState ≠ .idle := by rw [hfin]; decide
  refine ⟨fun hmode => h.completed hfin hclean ((byDuration_eq_false_iff t).mpr hmode), fun hmode => ?_⟩
  have hb := (byDuration_iff t).mpr hmode
  obtain ⟨hperiod, -⟩ := (cfgValid_of_byDuration hb).mp (h.valid hn)
  have hpos : 0 < t.period.toNat := Nat.pos_of_ne_zero (BitVec.toNat_ne_iff_ne.mpr hperiod)
  exact le_ceilDiv_of_pred_mul_lt hpos ((h.by_duration hn hb).2.imp_left (congrArg BitVec.toNat))

end Sys2Proof.Machine
end

