-- ==== Sys2Proof/Proofs/Writers.lean ====
section
/-! PROOF. Who writes what (10_state.md sections 2 to 5): the frame of each instruction, the frozen
configuration, and the readers of the clock. -/

namespace Sys2Proof.Machine

/-! ### The steps with a condition -/

/-- R198: CHECK writes DEADLINE, PHASE and STATE. -/
theorem checkStep_frame (s : State) :
    checkStep s = { s with
      deadline := (checkStep s).deadline
      phase := (checkStep s).phase
      runState := (checkStep s).runState } := by
  obtain ⟨-, -, heq⟩ | ⟨-, heq⟩ := checkStep_cases s
  · rw [heq]; rfl
  · rw [heq]

/-- R209, R211: XWAIT's answer writes RXBUF, the error, PHASE, STATE, the pending transfer and the trace. -/
theorem answerStep_frame (a : XferAnswer) (s : State) :
    answerStep a s = { s with
      rxbuf := (answerStep a s).rxbuf
      errCode := (answerStep a s).errCode
      errInfo := (answerStep a s).errInfo
      phase := (answerStep a s).phase
      runState := (answerStep a s).runState
      pending := (answerStep a s).pending
      events := (answerStep a s).events
      draws := (answerStep a s).draws } := by
  obtain ⟨-, heq⟩ | ⟨-, heq⟩ := answerStep_cases a s
  · rw [heq]; rfl
  · rw [heq]; rfl

/-- Settles O59: one case for each change that `exec_did` lists; where it writes a register, its hypothesis
names the writer. -/
theorem onlyTheNamedInstructionsWrite : Obligations.OnlyTheNamedInstructionsWrite := by
  intro i s t h stores cmd
  have hd := exec_did h
  cases hd with
  | busErr | readReg | readTraj | readTs | phIdle | held | phDone => simp
  | @store r wdata s hw hr => cases r <;> simp [stores, writeReg]
  | storeTraj => simp [trajWrite]
  | ckinit hc => simp [ckInit, show ∃ v, cmd (.ckinit v) from ⟨_, hc⟩]
  | ckbyte hc => simp [ckByte, show ∃ b, cmd (.ckbyte b) from ⟨_, hc⟩]
  | ckbuf hc => simp [ckBuf, show ∃ v b n, cmd (.ckbuf v b n) from ⟨_, _, _, hc⟩]
  | encode hc => simp [show cmd .enc from hc]
  | decode hc => simp [show cmd .dec from hc]
  | start hc => simp [startRun, show cmd .start from hc]
  | configError hc => simp [show cmd .start from hc]
  | phCheck => rw [checkStep_frame]; simp
  | phWait => rw [pollStep_afterNow_frame]; simp
  | phPre | phPost => simp
  | phEnc => rw [loadSample_eq]; simp
  | phXreq => simp [requestStep]
  | answered => rw [answerStep_frame]; simp
  | phDec => simp [decodeFrame]
  | phAppend => simp [appended]

/-- R173 (a): out of Idle a plain store reaches no configuration register. -/
theorem configFrozen_writeReg {r : Reg} {s : State} (wdata : DWord) (hn : s.runState ≠ .idle)
    (hw : writeAllowed r s = true) : ConfigFrozen s (writeReg r wdata s) := by
  have hlock : lockOpen (regLock r) s.runState = true := (Bool.and_eq_true_iff.mp hw).2
  cases r with
  | cfg | period | count | duration | trajLen => exact absurd (of_decide_eq_true hlock) hn
  | _ => exact ⟨rfl, rfl, rfl, rfl, rfl, rfl⟩

/-- Settles O54: the stores to these registers, and WR.TRAJ, ask for Idle. -/
theorem configurationIsFrozen : Obligations.ConfigurationIsFrozen := by
  intro i s t hn h
  have hd := exec_did h
  cases hd with
  | store hw => exact configFrozen_writeReg _ hn hw
  | storeTraj _ hidle | start _ hidle | configError _ hidle => exact absurd hidle hn
  | phCheck => rw [checkStep_frame]; exact ⟨rfl, rfl, rfl, rfl, rfl, rfl⟩
  | phWait => rw [pollStep_afterNow_frame]; exact ⟨rfl, rfl, rfl, rfl, rfl, rfl⟩
  | phEnc => rw [loadSample_eq]; exact ⟨rfl, rfl, rfl, rfl, rfl, rfl⟩
  | answered => rw [answerStep_frame]; exact ⟨rfl, rfl, rfl, rfl, rfl, rfl⟩
  | _ => exact ⟨rfl, rfl, rfl, rfl, rfl, rfl⟩

/-! ### The clock -/

/-- R84: what an instruction does to the clock: nothing, or one read. -/
theorem Did.clock_cases {i : Instr} {s t : State} (hd : Did i s t) :
    (t.clkLast = s.clkLast ∧ t.clockScript = s.clockScript) ∨
    ((carries i .start = true ∨ i = .phWait ∨ i = .phPre ∨ i = .phPost) ∧
      t.clkLast = nowValue s ∧ t.clockScript = s.clockScript.tail) := by
  cases hd with
  | start hc => exact .inr ⟨.inl hc, rfl, rfl⟩
  | phWait =>
    refine .inr ⟨.inr (.inl rfl), ?_⟩
    obtain ⟨-, -, heq⟩ | ⟨-, -, heq⟩ | ⟨-, -, heq⟩ := pollStep_cases (nowValue s) (afterNow s) <;>
      rw [heq] <;> exact ⟨rfl, rfl⟩
  | phPre => exact .inr ⟨.inr (.inr (.inl rfl)), rfl, rfl⟩
  | phPost => exact .inr ⟨.inr (.inr (.inr rfl)), rfl, rfl⟩
  | @store r wdata => cases r <;> exact .inl ⟨rfl, rfl⟩
  | phCheck => rw [checkStep_frame]; exact .inl ⟨rfl, rfl⟩
  | phEnc => rw [loadSample_eq]; exact .inl ⟨rfl, rfl⟩
  | answered => rw [answerStep_frame]; exact .inl ⟨rfl, rfl⟩
  | _ => exact .inl ⟨rfl, rfl⟩

/-- R84: no instruction sets the clock back. -/
theorem Did.clkLast_le {i : Instr} {s t : State} (hd : Did i s t) : s.clkLast ≤ t.clkLast := by
  obtain ⟨hsame, -⟩ | ⟨-, hnow, -⟩ := hd.clock_cases
  · rw [hsame]
    exact BitVec.le_refl _
  · rw [hnow]
    exact clkLast_le_nowValue s

/-- Settles O58: an instruction reads the clock forward, and no other turn touches it. -/
theorem clockLaw : Obligations.ClockLaw := by
  refine ⟨fun s t hstep => ?_, fun i s t h => (exec_did h).clock_cases⟩
  obtain ⟨w, rest, i, -, -, -, hx⟩ | ⟨w, rest, why, -, -, rfl⟩ | ⟨-, hx⟩ | ⟨n, a, rest, -, rfl⟩ |
    ⟨rest, -, rfl⟩ := step_cases hstep
  · exact (exec_did hx).clkLast_le
  · exact BitVec.le_refl _
  · exact (exec_did hx).clkLast_le
  · rw [transportTurn_eq]
    exact BitVec.le_refl _
  · exact BitVec.le_refl _

end Sys2Proof.Machine
end
